-- ==== Sys2Proof/Word.lean ====
section
/-! DEFINITION. The plain data every other file is written in: bytes, 4-bit colours, a packet record, a palette
entry. Nothing here computes (spec/00_scope.md R8, R9). -/

namespace Sys2Proof

/-- An unsigned 8-bit value 0..255 (spec/00_scope.md R8). -/
abbrev Byte := BitVec 8

/-- A palette index 0..15, the 4-bit colour operand of an instruction (spec/10_state.md R33, 30_encoding.md R96). -/
abbrev Color := BitVec 4

/-- A 12-bit colour entry 0xRGB of a palette load (spec/30_encoding.md R97, R102). -/
abbrev Rgb12 := BitVec 12

/-- An input record: the bytes the host hands over in one step, in arrival order, of any length
(spec/30_encoding.md R90, 40_packet_dispatch.md R131). -/
abbrev Record := List Byte

/-- One palette entry: three unsigned 8-bit channels, no alpha (spec/10_state.md R35). -/
structure Rgb where
  r : Byte
  g : Byte
  b : Byte
deriving DecidableEq, Repr

/-- The palette register file: 16 entries (spec/10_state.md R35). -/
abbrev Palette := Vector Rgb 16

/-- The twelve 6-bit bitmap rows of a tile (spec/30_encoding.md R98). -/
abbrev Bitmap := Vector (BitVec 6) 12

/-- The eight 12-bit colour entries of a palette load (spec/30_encoding.md R97). -/
abbrev ColorEntries := Vector Rgb12 8

end Sys2Proof
end

