-- ==== Sys2Proof/Machine/Constants.lean ====
section
/-! DEFINITION. The implementation constants of spec/00_scope.md R6, each under a name of its own: the source's numeric
literals are unaudited (91_not_in_source.md N3), so every literal has one visible place. -/

namespace Sys2Proof.Machine

/-- `FULL_WIDTH`, canvas columns (R6). -/
abbrev fullWidth : Nat := 300
/-- `FULL_HEIGHT`, canvas rows (R6). -/
abbrev fullHeight : Nat := 216
/-- `TILE_WIDTH`, tile columns (R6). -/
abbrev tileWidth : Nat := 6
/-- `TILE_HEIGHT`, tile rows (R6). -/
abbrev tileHeight : Nat := 12
/-- `BORDER_WIDTH`, left and right border columns (R6). -/
abbrev borderWidth : Nat := 6
/-- `BORDER_HEIGHT`, top and bottom border rows (R6). -/
abbrev borderHeight : Nat := 12
/-- `PACKET_SIZE`, bytes per packet (R6). -/
abbrev packetSize : Nat := 24
/-- `DATA_SIZE`, data bytes per packet (R6). -/
abbrev dataSize : Nat := 16
/-- The packet byte at which the data field starts (spec/30_encoding.md R91, decision D2). -/
abbrev dataStart : Nat := 4
/-- `CDG_COMMAND`, the command tag (R6). -/
abbrev cdgCommand : BitVec 6 := 0x09
/-- `HS_MAX`, the largest horizontal fine offset (R6). -/
abbrev hsMax : Nat := 5
/-- `VS_MAX`, the largest vertical fine offset (R6). -/
abbrev vsMax : Nat := 11
/-- `H_STEP`, the horizontal directional scroll step (R6). -/
abbrev hStep : Int := 6
/-- `V_STEP`, the vertical directional scroll step (R6). -/
abbrev vStep : Int := 12
/-- `COLOR_SCALE`, the 4-bit to 8-bit channel scale (R6, spec/42_palette.md R182). -/
abbrev colorScale : Nat := 17

end Sys2Proof.Machine
end

