-- ==== Sys2Proof/Syntax.lean ====
section
/-! DEFINITION. The instructions: one constructor per row of spec/opcode_table.json, with the operands of
spec/30_encoding.md R96 to R99 after masking and clamping. -/

namespace Sys2Proof

/-- The eight CD+G instructions and the `NOP` fallback (spec/30_encoding.md R94). -/
inductive Instr where
  /-- `MEMPRESET color, repeat` (R160). -/
  | memPreset (color : Color) (rep : BitVec 4)
  /-- `BORDERPRESET color, repeat` (R162). -/
  | borderPreset (color : Color) (rep : BitVec 4)
  /-- `TILE c0, c1, rowf, colf, bm0, ..., bm11` (R202). -/
  | tile (c0 c1 : Color) (rowf : BitVec 5) (colf : BitVec 6) (bm : Bitmap)
  /-- `SCROLLP color, hcmd, hoff, vcmd, voff` (R242); `hoff` and `voff` are the clamped operands of R99. -/
  | scrollP (color : Color) (hcmd : BitVec 2) (hoff : BitVec 3) (vcmd : BitVec 2) (voff : BitVec 4)
  /-- `SCROLLC color, hcmd, hoff, vcmd, voff` (R243). -/
  | scrollC (color : Color) (hcmd : BitVec 2) (hoff : BitVec 3) (vcmd : BitVec 2) (voff : BitVec 4)
  /-- `PALLO rgb0, ..., rgb7` (R180). -/
  | palLo (rgb : ColorEntries)
  /-- `PALHI rgb0, ..., rgb7` (R181). -/
  | palHi (rgb : ColorEntries)
  /-- `TILEX c0, c1, rowf, colf, bm0, ..., bm11` (R203). -/
  | tileX (c0 c1 : Color) (rowf : BitVec 5) (colf : BitVec 6) (bm : Bitmap)
  /-- `NOP`: every packet that selects none of the eight rows (R95, R136). -/
  | nop
deriving DecidableEq, Repr

end Sys2Proof
end

