-- ==== Sys2Proof/WellFormed.lean ====
section
/-! DEFINITION. Which instructions a packet can stand for: the scroll offsets are clamped (spec/30_encoding.md R99);
every other operand fills its field. -/

namespace Sys2Proof

/-- The operand ranges of R99: `hoff` in 0..5, `voff` in 0..11. -/
def offsetsInRange (hoff : BitVec 3) (voff : BitVec 4) : Bool :=
  decide (hoff.toNat ≤ Machine.hsMax) && decide (voff.toNat ≤ Machine.vsMax)

/-- The check of one instruction (R96 to R99). -/
def Instr.wellFormed : Instr → Bool
  | .memPreset _ _ => true
  | .borderPreset _ _ => true
  | .tile _ _ _ _ _ => true
  | .scrollP _ _ hoff _ voff => offsetsInRange hoff voff
  | .scrollC _ _ hoff _ voff => offsetsInRange hoff voff
  | .palLo _ => true
  | .palHi _ => true
  | .tileX _ _ _ _ _ => true
  | .nop => true

/-- An instruction some packet decodes to. -/
abbrev Instr.WellFormed (i : Instr) : Prop := i.wellFormed = true

end Sys2Proof
end

