-- ==== Sys2Proof/Decode.lean ====
section
/-! DEFINITION. Decoding a record (spec/30_encoding.md R90 to R101) and, after it, the encoder (R102). Decoding is total:
a record of 24 bytes is exactly one instruction, a record of any other length is refused by name (R101, R281). -/

namespace Sys2Proof

/-- Why a record is no packet. -/
inductive DecodeError where
  /-- The record's length is not 24 (R90, R281). -/
  | malformedPacket (length : Nat)
deriving DecidableEq, Repr

/-! ### Fields of a packet -/

/-- `pkt[i]`, byte `i` of a packet (R91); only asked for `i` below 24. -/
def packetByte (r : Record) (i : Nat) : Byte := r.getD i 0

/-- `d[i] = pkt[4+i]`, data byte `i` (R91). -/
def dataByte (r : Record) (i : Nat) : Byte := packetByte r (Machine.dataStart + i)

/-- `v[5:0]` of a byte: `v & 0x3F` (R92, R93). -/
def low6 (v : Byte) : BitVec 6 := v.extractLsb' 0 6

/-- `v[3:0]` of a byte: `v & 0x0F` (R96, R98, R99). -/
def low4 (v : Byte) : BitVec 4 := v.extractLsb' 0 4

/-- The command field (R92). -/
def commandField (r : Record) : BitVec 6 := low6 (packetByte r 0)

/-- The instruction field (R93). -/
def instructionField (r : Record) : BitVec 6 := low6 (packetByte r 1)

/-- The decode word `W = (pkt[0] << 8) | pkt[1]` (R95). -/
def decodeWord (r : Record) : BitVec 16 := packetByte r 0 ++ packetByte r 1

/-! ### The opcode table -/

/-- The nine rows' names (R94). -/
inductive Opcode where
  | memPreset | borderPreset | tile | scrollP | scrollC | palLo | palHi | tileX | nop
deriving DecidableEq, Repr

/-- One row of the opcode table: it selects the words `W` with `W & mask = pattern` (R95). -/
structure OpcodeRow where
  opcode : Opcode
  mask : BitVec 16
  pattern : BitVec 16
deriving DecidableEq, Repr

/-- `(W & r.mask) == r.match` (R95). -/
def rowSelects (row : OpcodeRow) (w : BitVec 16) : Bool := w &&& row.mask == row.pattern

/-- The eight instruction rows of spec/opcode_table.json, in its order. -/
def opcodeTable : List OpcodeRow :=
  [⟨.memPreset, 0x3F3F, 0x0901⟩, ⟨.borderPreset, 0x3F3F, 0x0902⟩, ⟨.tile, 0x3F3F, 0x0906⟩,
   ⟨.scrollP, 0x3F3F, 0x0914⟩, ⟨.scrollC, 0x3F3F, 0x0918⟩, ⟨.palLo, 0x3F3F, 0x091E⟩,
   ⟨.palHi, 0x3F3F, 0x091F⟩, ⟨.tileX, 0x3F3F, 0x0926⟩]

/-- The row a decode word selects; `NOP` exactly when no instruction row matches (R95). -/
def opcodeOf (w : BitVec 16) : Opcode :=
  match opcodeTable.find? (rowSelects · w) with
  | some row => row.opcode
  | none => .nop

/-! ### Operands -/

/-- `color_k = (d[2k] << 6) | (d[2k+1] & 0x3F)`, 14 bits (R97, R182). -/
def assembleColor (hi lo : Byte) : BitVec 14 := hi.setWidth 14 <<< 6 ||| (low6 lo).setWidth 14

/-- The colour entry of two data bytes: bits 11:0 of `color_k`, the only ones used (R97). -/
def colorEntry (hi lo : Byte) : Rgb12 := (assembleColor hi lo).extractLsb' 0 12

/-- The eight entries of the PALETTE format (R97). -/
def colorEntries (r : Record) : ColorEntries :=
  #v[colorEntry (dataByte r 0) (dataByte r 1), colorEntry (dataByte r 2) (dataByte r 3),
     colorEntry (dataByte r 4) (dataByte r 5), colorEntry (dataByte r 6) (dataByte r 7),
     colorEntry (dataByte r 8) (dataByte r 9), colorEntry (dataByte r 10) (dataByte r 11),
     colorEntry (dataByte r 12) (dataByte r 13), colorEntry (dataByte r 14) (dataByte r 15)]

/-- `bm[j] = d[4+j] & 0x3F`, `j = 0..11` (R98). -/
def bitmapRows (r : Record) : Bitmap :=
  #v[low6 (dataByte r 4), low6 (dataByte r 5), low6 (dataByte r 6), low6 (dataByte r 7),
     low6 (dataByte r 8), low6 (dataByte r 9), low6 (dataByte r 10), low6 (dataByte r 11),
     low6 (dataByte r 12), low6 (dataByte r 13), low6 (dataByte r 14), low6 (dataByte r 15)]

/-- `hoff = min(d[1] & 0x7, 5)` (R99). -/
def clampH (d1 : Byte) : BitVec 3 := BitVec.ofNat 3 (min (d1.extractLsb' 0 3).toNat Machine.hsMax)

/-- `voff = min(d[2] & 0xF, 11)` (R99). -/
def clampV (d2 : Byte) : BitVec 4 := BitVec.ofNat 4 (min (low4 d2).toNat Machine.vsMax)

/-- `(v >> 4) & 0x3`, the direction field of a scroll byte (R99). -/
def directionField (v : Byte) : BitVec 2 := v.extractLsb' 4 2

/-- `rowf = d[2] & 0x1F` (R98). -/
def tileRowField (d2 : Byte) : BitVec 5 := d2.extractLsb' 0 5

/-! ### The decoder -/

/-- The instruction of a 24-byte record (R94 to R99): the decode word picks the row, the row's format the operands. -/
def decodePacket (r : Record) : Instr :=
  match opcodeOf (decodeWord r) with
  | .memPreset => .memPreset (low4 (dataByte r 0)) (low4 (dataByte r 1))
  | .borderPreset => .borderPreset (low4 (dataByte r 0)) (low4 (dataByte r 1))
  | .tile =>
    .tile (low4 (dataByte r 0)) (low4 (dataByte r 1)) (tileRowField (dataByte r 2)) (low6 (dataByte r 3)) (bitmapRows r)
  | .scrollP =>
    .scrollP (low4 (dataByte r 0)) (directionField (dataByte r 1)) (clampH (dataByte r 1))
      (directionField (dataByte r 2)) (clampV (dataByte r 2))
  | .scrollC =>
    .scrollC (low4 (dataByte r 0)) (directionField (dataByte r 1)) (clampH (dataByte r 1))
      (directionField (dataByte r 2)) (clampV (dataByte r 2))
  | .palLo => .palLo (colorEntries r)
  | .palHi => .palHi (colorEntries r)
  | .tileX =>
    .tileX (low4 (dataByte r 0)) (low4 (dataByte r 1)) (tileRowField (dataByte r 2)) (low6 (dataByte r 3)) (bitmapRows r)
  | .nop => .nop

/-- Parse and decode a record of any length (R90, R133). -/
def decode (r : Record) : Except DecodeError Instr :=
  if r.length = Machine.packetSize then .ok (decodePacket r) else .error (.malformedPacket r.length)

/-! ### The encoder -/

/-- A packet with command 0x09, the given instruction code and data, and zero in every ignored byte (R102). -/
def packet (ins : Byte) (data : List Byte) : Record := [0x09, ins, 0, 0] ++ data ++ [0, 0, 0, 0]

/-- The data bytes of the PRESET format (R102). -/
def presetData (color : Color) (rep : BitVec 4) : List Byte :=
  [color.setWidth 8, rep.setWidth 8, 0, 0, 0, 0, 0, 0, 0, 0, 0, 0, 0, 0, 0, 0]

/-- The data bytes of the TILE format (R102). -/
def tileData (c0 c1 : Color) (rowf : BitVec 5) (colf : BitVec 6) (bm : Bitmap) : List Byte :=
  [c0.setWidth 8, c1.setWidth 8, rowf.setWidth 8, colf.setWidth 8,
   bm[0].setWidth 8, bm[1].setWidth 8, bm[2].setWidth 8, bm[3].setWidth 8,
   bm[4].setWidth 8, bm[5].setWidth 8, bm[6].setWidth 8, bm[7].setWidth 8,
   bm[8].setWidth 8, bm[9].setWidth 8, bm[10].setWidth 8, bm[11].setWidth 8]

/-- The data bytes of the SCROLL format: `d[1] = (hcmd << 4) | hoff`, `d[2] = (vcmd << 4) | voff` (R102). -/
def scrollData (color : Color) (hcmd : BitVec 2) (hoff : BitVec 3) (vcmd : BitVec 2) (voff : BitVec 4) : List Byte :=
  [color.setWidth 8, hcmd.setWidth 8 <<< 4 ||| hoff.setWidth 8, vcmd.setWidth 8 <<< 4 ||| voff.setWidth 8,
   0, 0, 0, 0, 0, 0, 0, 0, 0, 0, 0, 0, 0]

/-- `d[2k] = (rgbk >> 6) & 0x3F` (R102). -/
def entryHigh (rgb : Rgb12) : Byte := (rgb.extractLsb' 6 6).setWidth 8

/-- `d[2k+1] = rgbk & 0x3F` (R102). -/
def entryLow (rgb : Rgb12) : Byte := (rgb.extractLsb' 0 6).setWidth 8

/-- The data bytes of the PALETTE format (R102). -/
def paletteData (rgb : ColorEntries) : List Byte :=
  [entryHigh rgb[0], entryLow rgb[0], entryHigh rgb[1], entryLow rgb[1],
   entryHigh rgb[2], entryLow rgb[2], entryHigh rgb[3], entryLow rgb[3],
   entryHigh rgb[4], entryLow rgb[4], entryHigh rgb[5], entryLow rgb[5],
   entryHigh rgb[6], entryLow rgb[6], entryHigh rgb[7], entryLow rgb[7]]

/-- The packet of an instruction (R102), with the instruction codes of R94. -/
def encode : Instr → Record
  | .memPreset color rep => packet 0x01 (presetData color rep)
  | .borderPreset color rep => packet 0x02 (presetData color rep)
  | .tile c0 c1 rowf colf bm => packet 0x06 (tileData c0 c1 rowf colf bm)
  | .scrollP color hcmd hoff vcmd voff => packet 0x14 (scrollData color hcmd hoff vcmd voff)
  | .scrollC color hcmd hoff vcmd voff => packet 0x18 (scrollData color hcmd hoff vcmd voff)
  | .palLo rgb => packet 0x1E (paletteData rgb)
  | .palHi rgb => packet 0x1F (paletteData rgb)
  | .tileX c0 c1 rowf colf bm => packet 0x26 (tileData c0 c1 rowf colf bm)
  | .nop => packet 0x00 (List.replicate Machine.dataSize 0)

/-! ### Pseudo-instructions of the assembler syntax (R103) -/

/-- `FILL color`. -/
def fillInstr (color : Color) : Instr := .memPreset color 0

/-- `BORDER color`. -/
def borderInstr (color : Color) : Instr := .borderPreset color 0

/-- `PALETTE16 rgb0, ..., rgb15`: two packets. -/
def palette16Instrs (low high : ColorEntries) : List Instr := [.palLo low, .palHi high]

/-- `SOLID c, rowf, colf`: a tile of one colour. -/
def solidInstr (c : Color) (rowf : BitVec 5) (colf : BitVec 6) : Instr := .tile c c rowf colf (Vector.replicate 12 0)

/-- `SETOFF hoff, voff`: the offsets, and the canvas moved by their difference, with wrap. -/
def setOffInstr (hoff : BitVec 3) (voff : BitVec 4) : Instr := .scrollC 0 0 hoff 0 voff

/-! ### Words of the opcode table -/

/-- Word `k` of `w`: 16 bits, the first word in bits 15..0. Its bits 15..8 are the byte that comes first, as in
`W = (pkt[0] << 8) | pkt[1]` (R95). -/
def tableWordBytes (w k : Nat) : List Byte :=
  [BitVec.ofNat 8 (w >>> (16 * k + 8)), BitVec.ofNat 8 (w >>> (16 * k))]

/-- The 24-byte record whose bits, numbered as spec/opcode_table.json numbers them, are the low `nbits` bits of `w`;
every bit above is 0. -/
def tableRecord (nbits w : Nat) : Record :=
  (List.range (Machine.packetSize / 2)).flatMap (tableWordBytes (w % 2 ^ nbits))

/-- The instruction the decoder reads from a table row's word; none where it refuses. -/
def decodeTableWord (nbits w : Nat) : Option Instr :=
  match decode (tableRecord nbits w) with
  | .ok i => some i
  | .error _ => none

end Sys2Proof
end

