-- ==== Sys2Proof/Config.lean ====
section
/-! DEFINITION. The parameters spec/00_scope.md R7 leaves open, as plain data: `State.params` holds them, so that a
statement about every state covers every value of each. Their defaults are the spec's own (R7, decisions D6, D8). -/

namespace Sys2Proof

/-- `PCF_POLICY`: whether the palette-changed flag is cleared between packets (spec/40_packet_dispatch.md R138). -/
inductive PcfPolicy where
  /-- No step clears the flag. -/
  | sticky
  /-- Every step that ends without an error first clears it. -/
  | perPacket
deriving DecidableEq, Repr

/-- The open parameters of the block (spec/00_scope.md R7), fixed for a run: no step changes them. -/
structure Params where
  /-- `INIT_PIXEL` (R7, R45). -/
  initPixel : Color
  /-- `INIT_PALETTE` (R7, R46). -/
  initPalette : Palette
  /-- `PCF_POLICY` (R7, R138). -/
  pcfPolicy : PcfPolicy
deriving DecidableEq, Repr

namespace Config

/-- The colour (0, 0, 0). -/
def black : Rgb := ⟨0, 0, 0⟩

/-- DESIGN CHOICE (the spec's defaults of OPEN parameters; notes/assumptions/3.md, 4.md): `INIT_PIXEL` 0,
`INIT_PALETTE` all black, `PCF_POLICY` STICKY (R7). Unsafe on a block with other values; safe for a statement over every
state, which covers every value. -/
def defaultParams : Params :=
  { initPixel := 0, initPalette := Vector.replicate 16 black, pcfPolicy := .sticky }

/-- DESIGN CHOICE (notes/assumptions/7.md): what an offset of a buffer that no cell lists reads as, one value for every
buffer. It is the spec's default `INIT_PIXEL` (R45). Safe: it is only how a canvas is written down, since every byte that
differs from it is listed. -/
def unlisted : Byte := 0

/-- DESIGN CHOICE (notes/assumptions/5.md): the handle of the initial buffer in `State.reset`; R48 leaves it to the
host. -/
def initialHandle : Nat := 0

/-- DESIGN CHOICE (notes/assumptions/5.md): the padding of a row of the initial buffer in `State.reset`, so that its
stride is 300, the least R61 allows. -/
def initialPad : Nat := 0

end Config
end Sys2Proof
end

