-- ==== Sys2Proof/Machine/State.lean ====
section
/-! DEFINITION. The state as plain data: the architectural state of spec/10_state.md R30, the hidden state of R43 and
44_scroll.md R249, the parameters of 00_scope.md R7, and the arguments and results of a step (40_packet_dispatch.md R131)
that `step : State → Outcome` takes from and leaves in the state. Then the reasons a step can stop, and reset. -/

namespace Sys2Proof.Machine

/-- The bytes of a canvas buffer: (offset, byte) cells, offsets strictly rising, no byte equal to `Config.unlisted`
(what an offset no cell lists reads as). The predicate is `Memory.wf`. -/
abbrev Memory := List Host.Cell

/-- A canvas buffer the host supplies (spec/20_memory.md R60, R61): its handle, the padding of a row (its stride is
300 + `pad`, so every stride R61 allows and no other), its bytes. -/
structure Buffer where
  handle : Nat
  pad : Nat
  mem : Memory
deriving DecidableEq, Repr

/-- The host's answer to a buffer acquisition (R131): the granted buffer's bytes are any at all (R235). -/
inductive Alloc where
  | grant (b : Buffer)
  | deny
deriving DecidableEq, Repr

/-- What the host may do between two steps (spec/60_exceptions.md R289): hand over a record together with the answer it
will give if that record's step acquires a buffer (R131), or reset the block with an initial buffer (R320). -/
inductive HostAction where
  | packet (record : Record) (alloc : Alloc)
  | reset (b0 : Buffer)
deriving DecidableEq, Repr

/-- A host request a step issues (R131): `Acquire()` or `Release(b)`, the buffer by its handle. -/
inductive HostRequest where
  | acquire
  | release (handle : Nat)
deriving DecidableEq, Repr

/-- The two error kinds (spec/60_exceptions.md R280), with the information each records (R281, R282). -/
inductive ErrorKind where
  | malformedPacket (length : Nat)
  | bufferAllocationFailure
deriving DecidableEq, Repr

/-- The frame of a successful step, `(LIVE, STRIDE(LIVE), PIX, PAL, PCF)` (spec/40_packet_dispatch.md R137): the live
buffer holds the first three. -/
structure Frame where
  buffer : Buffer
  pal : Palette
  pcf : Bool
deriving DecidableEq, Repr

/-- The output record of a step: `(OK, frame)` (R137) or `(E, none)` (R285). -/
inductive OutRecord where
  | ok (frame : Frame)
  | error (kind : ErrorKind)
deriving DecidableEq, Repr

/-- The double-buffer controller's phase (spec/44_scroll.md R249). -/
inductive Phase where
  | idle | acquire | build | swap
deriving DecidableEq, Repr

/-- The machine's state. -/
structure State where
  /-- `LIVE`, `STRIDE(LIVE)` and `PIX`: the live canvas buffer (R33, R40, R61). -/
  live : Buffer
  /-- `PAL` (R35). -/
  pal : Palette
  /-- `HS`, the horizontal fine-scroll offset, 0..5 (R37, R41). -/
  hs : BitVec 3
  /-- `VS`, the vertical fine-scroll offset, 0..11 (R37, R41). -/
  vs : BitVec 4
  /-- `PCF`, the palette-changed flag (R39). -/
  pcf : Bool
  /-- The double-buffer phase (R249, R321). -/
  phase : Phase
  /-- `PENDING`, the back buffer of a scroll (R43, R234). -/
  pending : Option Buffer
  /-- The open parameters (R7). -/
  params : Params
  /-- The host's actions not yet taken, oldest first (R131, R289). -/
  input : List HostAction
  /-- `alloc`, the host's answer for the current step (R131). -/
  alloc : Alloc
  /-- `out`, the output record of the last step; none after reset (R131, R320). -/
  out : Option OutRecord
  /-- `ev`, the requests the last step issued, in order (R131). -/
  events : List HostRequest
deriving DecidableEq, Repr

/-- Why the machine stops with a fault. -/
inductive Fault where
  /-- A pixel access outside columns 0..299 or rows 0..215 (spec/20_memory.md R63, 93_implementation_defined.md I21).
  Raised by the rectangle primitives of Ops.lean. Safe: it stops; no packet causes one, so reaching it would mean the
  model departs from the spec. -/
  | outsideCanvas
deriving DecidableEq, Repr

/-- Why an instruction is given no meaning. -/
inductive Refusal where
  /-- An instruction not modelled yet, by its mnemonic. Raised by `exec`'s refused arms. Safe: it stops. -/
  | notModelled (mnemonic : String)
  /-- The host granted the buffer the block already holds, against its duty (spec/60_exceptions.md R289); the spec gives
  this no move (decision D20, 93_implementation_defined.md I18: `refuse`). Raised by the scroll engine. Safe: it
  stops. -/
  | heldBufferGranted
deriving DecidableEq, Repr

/-- The machine right after reset (spec/10_state.md R45 to R49, 70_reset_and_hazards.md R320, R321), with the default
parameters and an initial buffer of the least stride: every pixel `INIT_PIXEL` = 0, so no cell is listed. -/
def State.reset : State where
  live := { handle := Config.initialHandle, pad := Config.initialPad, mem := [] }
  pal := Config.defaultParams.initPalette
  hs := 0
  vs := 0
  pcf := false
  phase := .idle
  pending := none
  params := Config.defaultParams
  input := []
  alloc := .deny
  out := none
  events := []

end Sys2Proof.Machine
end

