-- ==== Sys2Proof/Machine/Ops.lean ====
section
/-! DEFINITION. The named operations over memory and registers: the bytes of a buffer, the rectangle primitives
(spec/20_memory.md R62, R70, R71), taking an error (60_exceptions.md R285), the buffer requests (R289), the frame and the
output record (40_packet_dispatch.md R137), and a host reset (70_reset_and_hazards.md R320). -/

namespace Sys2Proof.Machine

/-! ### The bytes of a buffer -/

/-- The canonical form: offsets strictly rising, no cell holding what an unlisted offset reads as. -/
abbrev Memory.wf (m : Memory) : Prop :=
  m.Pairwise (fun c d => c.1 < d.1) ∧ ∀ c ∈ m, c.2 ≠ Config.unlisted

/-- `MemRead(b, a, 1)` (spec/20_memory.md R62): the byte at an offset. -/
def readByte : Memory → Nat → Byte
  | [], _ => Config.unlisted
  | c :: m, a => if c.1 = a then c.2 else readByte m a

/-- Two lists of cells in one, each kept in its order; rising offsets stay rising. -/
def mergeCells : Memory → Memory → Memory
  | [], cells => cells
  | c :: m, cells =>
    cells.takeWhile (fun d => decide (d.1 < c.1)) ++ c :: mergeCells m (cells.dropWhile fun d => decide (d.1 < c.1))

/-- `STRIDE(b)` (spec/20_memory.md R61): at least 300, by its form. -/
def Buffer.stride (b : Buffer) : Nat := fullWidth + b.pad

/-- The offset of pixel `(x, y)` in a buffer of the given stride: `y · STRIDE + x` (R61). -/
def pixelOffset (stride x y : Nat) : Nat := y * stride + x

/-- Pixel `(x, y)` of a buffer (R62); `C[y][x]` of the live one. -/
def pixelAt (b : Buffer) (x y : Nat) : Byte := readByte b.mem (pixelOffset b.stride x y)

/-! ### Rectangles -/

/-- A rectangle: its top-left pixel, its width and its height (spec/20_memory.md R70). -/
structure Rect where
  x : Nat
  y : Nat
  w : Nat
  h : Nat
deriving DecidableEq, Repr

/-- The rectangle lies inside the canvas: what R70 and R71 require. -/
def rectFits (t : Rect) : Bool := decide (t.x + t.w ≤ fullWidth) && decide (t.y + t.h ≤ fullHeight)

/-- Pixel `(x, y)` lies in the rectangle. -/
def rectHas (t : Rect) (x y : Nat) : Bool :=
  decide (t.x ≤ x) && decide (x < t.x + t.w) && decide (t.y ≤ y) && decide (y < t.y + t.h)

/-- The offset is that of a pixel of the rectangle. -/
def offsetInRect (stride : Nat) (t : Rect) (a : Nat) : Bool := rectHas t (a % stride) (a / stride)

/-- The cell of a byte, if a cell is needed to hold it. -/
def cellOf (a : Nat) (v : Byte) : Option Host.Cell := if v = Config.unlisted then none else some (a, v)

/-- The cells of a rectangle, row by row, column `i` of row `j` holding `f i j`. -/
def rectCells (stride : Nat) (t : Rect) (f : Nat → Nat → Byte) : Memory :=
  (List.range t.h).flatMap fun j =>
    (List.range t.w).filterMap fun i => cellOf (pixelOffset stride (t.x + i) (t.y + j)) (f i j)

/-- The buffer with the rectangle's bytes replaced by the given cells. -/
def replaceRect (b : Buffer) (t : Rect) (cells : Memory) : Buffer :=
  { b with mem := mergeCells (b.mem.filter fun c => !offsetInRect b.stride t c.1) cells }

/-- For every column `i` and row `j` of the rectangle, its pixel gets `f i j` of its value before. None where the
rectangle leaves the canvas (R63, R70). -/
def updateRect (b : Buffer) (t : Rect) (f : Nat → Nat → Byte → Byte) : Option Buffer :=
  if rectFits t then
    let old := b.mem.filter fun c => offsetInRect b.stride t c.1
    some (replaceRect b t
      (rectCells b.stride t fun i j => f i j (readByte old (pixelOffset b.stride (t.x + i) (t.y + j)))))
  else none

/-- A colour as the byte of a pixel: its high 4 bits are 0 (R66). -/
def pixelByte (c : Color) : Byte := c.setWidth 8

/-- `RectFill(x0, y0, w, h, v)` (R70). -/
def rectFill (b : Buffer) (t : Rect) (c : Color) : Option Buffer := updateRect b t fun _ _ _ => pixelByte c

/-- The cell of a pixel of the source rectangle, moved to the place the copy gives it. -/
def movedCell (newStride oldStride dx dy : Nat) (src : Rect) (c : Host.Cell) : Option Host.Cell :=
  if offsetInRect oldStride src c.1 then
    some (pixelOffset newStride (c.1 % oldStride - src.x + dx) (c.1 / oldStride - src.y + dy), c.2)
  else none

/-- `RectCopy(dx, dy, sx, sy, w, h)` (R71): the source rectangle of the old canvas `o` written into the new canvas `n` at
`(dx, dy)`. None where either rectangle leaves the canvas. -/
def rectCopy (n o : Buffer) (dx dy : Nat) (src : Rect) : Option Buffer :=
  if rectFits ⟨dx, dy, src.w, src.h⟩ && rectFits src then
    some (replaceRect n ⟨dx, dy, src.w, src.h⟩ (o.mem.filterMap (movedCell n.stride o.stride dx dy src)))
  else none

/-- The whole canvas (R69). -/
def wholeCanvas : Rect := ⟨0, 0, fullWidth, fullHeight⟩

/-! ### Registers -/

/-- The live buffer's pixels replaced: a write through `C[y][x] <- v` (R62). -/
def setLive (b : Buffer) (s : State) : State := { s with live := b }

/-- `PAL` replaced. -/
def setPal (p : Palette) (s : State) : State := { s with pal := p }

/-- `HS <- hoff; VS <- voff` (spec/44_scroll.md R232). -/
def setOffsets (hoff : BitVec 3) (voff : BitVec 4) (s : State) : State := { s with hs := hoff, vs := voff }

/-- The state of a live-buffer update, or the model's fault where the update leaves the canvas (R63). -/
def storeLive (b : Option Buffer) (s : State) : Host.Outcome State Fault Refusal :=
  match b with
  | some b => .next (setLive b s)
  | none => .fault .outsideCanvas

/-! ### Taking an error -/

/-- `raise E(info)` (spec/60_exceptions.md R285): the output record becomes `(E, none)`, and a back buffer is never made
live. `finishStep` gives every other element of the state the value it had before the step. There is no handler, no
saved register and no mode (R285), and no return (R286): the next record starts an ordinary step, `beginStep`. -/
def raise (e : ErrorKind) (s : State) : State := { s with out := some (.error e), pending := none, phase := .idle }

/-- The output record reports an error. -/
def failed (s : State) : Bool :=
  match s.out with
  | some (.error _) => true
  | _ => false

/-! ### Host requests and the double buffer (spec/44_scroll.md R234, R235, R241, R249) -/

/-- `Acquire()` (R234). -/
def requestBuffer (s : State) : State := { s with events := s.events ++ [.acquire], phase := .acquire }

/-- `PENDING <- b` (R234). -/
def beginBuild (b : Buffer) (s : State) : State := { s with pending := some b, phase := .build }

/-- The new canvas is complete in `PENDING` (R240). -/
def endBuild (n : Buffer) (s : State) : State := { s with pending := some n, phase := .swap }

/-- `old <- LIVE; LIVE <- PENDING; Release(old)` (R241). -/
def swap (s : State) : State :=
  match s.pending with
  | some n => { s with live := n, pending := none, phase := .idle, events := s.events ++ [.release s.live.handle] }
  | none => s

/-! ### The steps around an instruction -/

/-- The start of a step: the record is taken from the host with its answer, and nothing has been put out or requested
yet (spec/40_packet_dispatch.md R131). -/
def beginStep (alloc : Alloc) (rest : List HostAction) (s : State) : State :=
  { s with input := rest, alloc := alloc, out := none, events := [] }

/-- The frame of the state: `(LIVE, STRIDE(LIVE), PIX, PAL, PCF)` (R137). -/
def frameOf (s : State) : Frame := { buffer := s.live, pal := s.pal, pcf := s.pcf }

/-- `Emit(OK, LIVE, STRIDE(LIVE), PIX, PAL, PCF)` (R137). -/
def emit (s : State) : State := { s with out := some (.ok (frameOf s)) }

/-- The end of a step: a step that raised an error keeps the state from before it, with the error's output record and
the requests it issued (R285, R12, R248); any other emits the frame (R137). -/
def finishStep (before after : State) : State :=
  if failed after then { before with out := after.out, events := after.events } else emit after

/-- The outcome with its next state, if it has one, given to `k`; a fault or a refusal stays. -/
def mapNext (k : State → State) : Host.Outcome State Fault Refusal → Host.Outcome State Fault Refusal
  | .next s => .next (k s)
  | .fault e => .fault e
  | .refused e => .refused e

/-! ### Reset -/

/-- Reset with an initial buffer the host supplies (spec/70_reset_and_hazards.md R320): every pixel `INIT_PIXEL`, `PAL`
`INIT_PALETTE`, `HS = VS = 0`, `LIVE` that buffer, `PCF = 0`, the controller idle (R321); no request, no output record. -/
def hostReset (b0 : Buffer) (s : State) : Host.Outcome State Fault Refusal :=
  match rectFill b0 wholeCanvas s.params.initPixel with
  | some b =>
    .next { s with
      live := b, pal := s.params.initPalette, hs := 0, vs := 0, pcf := false,
      phase := .idle, pending := none, out := none, events := [] }
  | none => .fault .outsideCanvas

/-- The status code of an output record (spec/60_exceptions.md R280). -/
def statusCode : OutRecord → Nat
  | .ok _ => 0
  | .error (.malformedPacket _) => 1
  | .error .bufferAllocationFailure => 2

end Sys2Proof.Machine
end

