-- ==== Sys2Proof/Machine/Nop.lean ====
section
/-! DEFINITION. The no-op (spec/40_packet_dispatch.md R134, R136). -/

namespace Sys2Proof.Machine

/-- `NOP` (R136): nothing happens. The frame is emitted and `PCF` cleared by policy around it, as for every step
(R137, R138). -/
def execNop (s : State) : Host.Outcome State Fault Refusal := .next s

end Sys2Proof.Machine
end

