-- ==== Sys2Proof/Machine/Flags.lean ====
section
/-! DEFINITION. The one flag of the block, `PCF`, the palette-changed flag (spec/10_state.md R39). -/

namespace Sys2Proof.Machine

/-- `PCF <- 1` (spec/42_palette.md R183). -/
def setPcf (s : State) : State := { s with pcf := true }

/-- The policy clear of `PCF`, phase 2 of a step (spec/40_packet_dispatch.md R132, R138): under `PER_PACKET` the flag is
cleared, under `STICKY` nothing happens. -/
def policyClear (s : State) : State :=
  match s.params.pcfPolicy with
  | .sticky => s
  | .perPacket => { s with pcf := false }

end Sys2Proof.Machine
end

