-- ==== Sys2Proof/Machine/Operands.lean ====
section
/-! DEFINITION. What the operands of an instruction stand for: the colour of a palette entry (spec/42_palette.md R182), the
place, the clip test and the pixel of a tile (43_tile.md R200 to R203), the net shift of a scroll (44_scroll.md R231). -/

namespace Sys2Proof.Machine

/-! ### Palette (R182) -/

/-- A 4-bit channel times 17, as 8 bits. -/
def scaleChannel (v : BitVec 4) : Byte := BitVec.ofNat 8 (colorScale * v.toNat)

/-- The triple of a 12-bit entry: `r4 = rgb[11:8]`, `g4 = rgb[7:4]`, `b4 = rgb[3:0]`, each scaled. -/
def rgbOf (c : Rgb12) : Rgb :=
  { r := scaleChannel (c.extractLsb' 8 4), g := scaleChannel (c.extractLsb' 4 4), b := scaleChannel (c.extractLsb' 0 4) }

/-- `ColorDecode(hi, lo)` of two data bytes (R182). -/
def colorDecode (hi lo : Byte) : Rgb := rgbOf (colorEntry hi lo)

/-- The palette with entries 0..7 loaded (R180). -/
def loadLow (p : Palette) (rgb : ColorEntries) : Palette :=
  #v[rgbOf rgb[0], rgbOf rgb[1], rgbOf rgb[2], rgbOf rgb[3], rgbOf rgb[4], rgbOf rgb[5], rgbOf rgb[6], rgbOf rgb[7],
     p[8], p[9], p[10], p[11], p[12], p[13], p[14], p[15]]

/-- The palette with entries 8..15 loaded (R181). -/
def loadHigh (p : Palette) (rgb : ColorEntries) : Palette :=
  #v[p[0], p[1], p[2], p[3], p[4], p[5], p[6], p[7],
     rgbOf rgb[0], rgbOf rgb[1], rgbOf rgb[2], rgbOf rgb[3], rgbOf rgb[4], rgbOf rgb[5], rgbOf rgb[6], rgbOf rgb[7]]

/-! ### Tile (R98, R200 to R203) -/

/-- `row = rowf · 12` (R98). -/
def tileRow (rowf : BitVec 5) : Nat := rowf.toNat * tileHeight

/-- `col = colf · 6` (R98). -/
def tileCol (colf : BitVec 6) : Nat := colf.toNat * tileWidth

/-- The clip test, its four disjuncts as R201 writes them. -/
def clipped (row col : Nat) (hs : BitVec 3) (vs : BitVec 4) : Bool :=
  decide ((row : Int) > fullHeight - tileHeight - vs.toNat) || decide ((row : Int) + vs.toNat < 0) ||
  decide ((col : Int) > fullWidth - tileWidth - hs.toNat) || decide ((col : Int) + hs.toNat < 0)

/-- The rectangle of a tile: its pixel `(0, 0)` is at `(col + HS, row + VS)` (R200). -/
def tileRect (rowf : BitVec 5) (colf : BitVec 6) (s : State) : Rect :=
  ⟨tileCol colf + s.hs.toNat, tileRow rowf + s.vs.toNat, tileWidth, tileHeight⟩

/-- The tile is clipped under the state's offsets (R201). -/
def tileClipped (rowf : BitVec 5) (colf : BitVec 6) (s : State) : Bool :=
  clipped (tileRow rowf) (tileCol colf) s.hs s.vs

/-- `bm[j][5 - i]`, the bitmap bit of the tile's pixel `(i, j)`: bit 5 is the leftmost (R98). -/
def tileBit (bm : Bitmap) (i j : Nat) : Bool := (bm.getD j 0).getLsbD (tileWidth - 1 - i)

/-- `v = (bm[j][5 - i] == 1) ? c1 : c0` (R202). -/
def tileColor (c0 c1 : Color) (bm : Bitmap) (i j : Nat) : Byte := pixelByte (if tileBit bm i j then c1 else c0)

/-! ### Scroll (R100, R231) -/

/-- `hdir` (R100): 1 is right, +6; 2 is left, −6; 0 and 3 are none. DESIGN CHOICE of the spec for 3 (decision D3,
notes/assumptions/8.md). -/
def hdir (hcmd : BitVec 2) : Int :=
  if hcmd = 1 then hStep else if hcmd = 2 then -hStep else 0

/-- `vdir` (R100): 1 is down, +12; 2 is up, −12; 0 and 3 are none. DESIGN CHOICE of the spec for 3 and for the sign of down
(decisions D3, D4, notes/assumptions/8.md). -/
def vdir (vcmd : BitVec 2) : Int :=
  if vcmd = 1 then vStep else if vcmd = 2 then -vStep else 0

/-- `hinc = hdir + (hoff − HS)` (R231). -/
def hinc (hcmd : BitVec 2) (hoff hs : BitVec 3) : Int := hdir hcmd + ((hoff.toNat : Int) - hs.toNat)

/-- `vinc = vdir + (voff − VS)` (R231). -/
def vinc (vcmd : BitVec 2) (voff vs : BitVec 4) : Int := vdir vcmd + ((voff.toNat : Int) - vs.toNat)

end Sys2Proof.Machine
end

