-- ==== Sys2Proof/Machine/PaletteLoad.lean ====
section
/-! DEFINITION. The palette loads (spec/42_palette.md): eight entries, then `PCF <- 1` (R183). -/

namespace Sys2Proof.Machine

/-- `PALLO rgb0, ..., rgb7` (R180): entries 0..7. -/
def execPalLo (rgb : ColorEntries) (s : State) : Host.Outcome State Fault Refusal :=
  .next (setPcf (setPal (loadLow s.pal rgb) s))

/-- `PALHI rgb0, ..., rgb7` (R181): entries 8..15. -/
def execPalHi (rgb : ColorEntries) (s : State) : Host.Outcome State Fault Refusal :=
  .next (setPcf (setPal (loadHigh s.pal rgb) s))

end Sys2Proof.Machine
end

