-- ==== Sys2Proof/Machine/Preset.lean ====
section
/-! DEFINITION. The preset instructions (spec/41_preset.md). Both fill only when their own packet's repeat field is 0
(R161). -/

namespace Sys2Proof.Machine

/-- The repeat guard (R161): `fill` where the repeat field is 0, else nothing. -/
def whenFirst (rep : BitVec 4) (fill : State → Host.Outcome State Fault Refusal) (s : State) :
    Host.Outcome State Fault Refusal :=
  if rep = 0 then fill s else .next s

/-- The top border, rows 0..11 (R69, R162). -/
def topBorder : Rect := ⟨0, 0, fullWidth, borderHeight⟩
/-- The bottom border, rows 204..215. -/
def bottomBorder : Rect := ⟨0, fullHeight - borderHeight, fullWidth, borderHeight⟩
/-- The left border, columns 0..5 of rows 12..203. -/
def leftBorder : Rect := ⟨0, borderHeight, borderWidth, fullHeight - 2 * borderHeight⟩
/-- The right border, columns 294..299 of rows 12..203. -/
def rightBorder : Rect := ⟨fullWidth - borderWidth, borderHeight, borderWidth, fullHeight - 2 * borderHeight⟩

/-- The four fills of R162, in its order. -/
def fillBorder (b : Buffer) (c : Color) : Option Buffer :=
  (rectFill b topBorder c).bind fun b =>
    (rectFill b bottomBorder c).bind fun b =>
      (rectFill b leftBorder c).bind fun b => rectFill b rightBorder c

/-- `MEMPRESET color, repeat` (R160): the whole canvas. -/
def execMemPreset (color : Color) (rep : BitVec 4) (s : State) : Host.Outcome State Fault Refusal :=
  whenFirst rep (fun s => storeLive (rectFill s.live wholeCanvas color) s) s

/-- `BORDERPRESET color, repeat` (R162): the border; the interior is untouched. -/
def execBorderPreset (color : Color) (rep : BitVec 4) (s : State) : Host.Outcome State Fault Refusal :=
  whenFirst rep (fun s => storeLive (fillBorder s.live color) s) s

end Sys2Proof.Machine
end

