-- ==== Sys2Proof/Machine/Scroll.lean ====
section
/-! DEFINITION. The scroll engine and the canvas double-buffer controller (spec/44_scroll.md). -/

namespace Sys2Proof.Machine

/-- How the vacated bands are filled: with a flat colour (`SCROLLP`) or by wrapping (`SCROLLC`). -/
inductive FillMode where
  | preset (color : Color)
  | copy
deriving DecidableEq, Repr

/-- The main copy (R236): every pixel whose source lies inside the old canvas. -/
def mainCopy (hi vi : Int) (o n : Buffer) : Option Buffer :=
  rectCopy n o hi.toNat vi.toNat ⟨(-hi).toNat, (-vi).toNat, fullWidth - hi.natAbs, fullHeight - vi.natAbs⟩

/-- A band of the new canvas: the flat colour, or the old canvas's band of the same size at `(sx, sy)`. -/
def fillBand (mode : FillMode) (o n : Buffer) (band : Rect) (sx sy : Nat) : Option Buffer :=
  match mode with
  | .preset color => rectFill n band color
  | .copy => rectCopy n o band.x band.y ⟨sx, sy, band.w, band.h⟩

/-- The vertical band (R237), over the full width; nothing if there is no vertical shift. -/
def verticalBand (mode : FillMode) (vi : Int) (o n : Buffer) : Option Buffer :=
  if vi > 0 then fillBand mode o n ⟨0, 0, fullWidth, vi.toNat⟩ 0 (fullHeight - vi.toNat)
  else if vi < 0 then fillBand mode o n ⟨0, fullHeight - (-vi).toNat, fullWidth, (-vi).toNat⟩ 0 0
  else some n

/-- The horizontal band (R238), over the full height, after the vertical one; nothing if there is no horizontal shift. -/
def horizontalBand (mode : FillMode) (hi : Int) (o n : Buffer) : Option Buffer :=
  if hi > 0 then fillBand mode o n ⟨0, 0, hi.toNat, fullHeight⟩ (fullWidth - hi.toNat) 0
  else if hi < 0 then fillBand mode o n ⟨fullWidth - (-hi).toNat, 0, (-hi).toNat, fullHeight⟩ 0 0
  else some n

/-- The build of the new canvas `n` from the old one `o`, in the order of R239. -/
def buildCanvas (mode : FillMode) (hi vi : Int) (o n : Buffer) : Option Buffer :=
  (mainCopy hi vi o n).bind fun n => (verticalBand mode vi o n).bind fun n => horizontalBand mode hi o n

/-- The build in the granted buffer, the offset update and the swap (R235 to R241). -/
def buildAndSwap (mode : FillMode) (hi vi : Int) (hoff : BitVec 3) (voff : BitVec 4) (b : Buffer) (s : State) :
    Host.Outcome State Fault Refusal :=
  match buildCanvas mode hi vi s.live b with
  | some n => .next (swap (setOffsets hoff voff (endBuild n (beginBuild b s))))
  | none => .fault .outsideCanvas

/-- The host's answer to `Acquire()` (R234): `Deny` raises `BufferAllocationFailure` (60_exceptions.md R282), `Grant(b)`
starts the build. A grant of the held buffer breaks the host's duty and has no move (R289, decision D20). -/
def withGrant (s : State) (build : Buffer → State → Host.Outcome State Fault Refusal) :
    Host.Outcome State Fault Refusal :=
  match s.alloc with
  | .deny => .next (raise .bufferAllocationFailure s)
  | .grant b => if b.handle = s.live.handle then .refused .heldBufferGranted else build b s

/-- The algorithm of both scroll instructions (R230 to R243): zero net shift updates the offsets only (R233). -/
def scroll (mode : FillMode) (hcmd : BitVec 2) (hoff : BitVec 3) (vcmd : BitVec 2) (voff : BitVec 4) (s : State) :
    Host.Outcome State Fault Refusal :=
  if hinc hcmd hoff s.hs = 0 ∧ vinc vcmd voff s.vs = 0 then .next (setOffsets hoff voff s)
  else
    withGrant (requestBuffer s) fun b s' =>
      buildAndSwap mode (hinc hcmd hoff s.hs) (vinc vcmd voff s.vs) hoff voff b s'

/-- `SCROLLP color, hcmd, hoff, vcmd, voff` (R242). -/
def execScrollP (color : Color) (hcmd : BitVec 2) (hoff : BitVec 3) (vcmd : BitVec 2) (voff : BitVec 4) (s : State) :
    Host.Outcome State Fault Refusal :=
  scroll (.preset color) hcmd hoff vcmd voff s

/-- `SCROLLC color, hcmd, hoff, vcmd, voff` (R243): the colour is read and not used. -/
def execScrollC (_color : Color) (hcmd : BitVec 2) (hoff : BitVec 3) (vcmd : BitVec 2) (voff : BitVec 4) (s : State) :
    Host.Outcome State Fault Refusal :=
  scroll .copy hcmd hoff vcmd voff s

end Sys2Proof.Machine
end

