-- ==== Sys2Proof/Machine/Tile.lean ====
section
/-! DEFINITION. The tile painter (spec/43_tile.md). A clipped tile writes nothing (R201). -/

namespace Sys2Proof.Machine

/-- Each of the tile's 72 pixels gets `mode` of its value before and the tile's colour, unless the tile is clipped
(R200 to R203). -/
def paintTile (mode : Byte → Byte → Byte) (c0 c1 : Color) (rowf : BitVec 5) (colf : BitVec 6) (bm : Bitmap)
    (s : State) : Host.Outcome State Fault Refusal :=
  if tileClipped rowf colf s then .next s
  else storeLive (updateRect s.live (tileRect rowf colf s) fun i j p => mode p (tileColor c0 c1 bm i j)) s

/-- `TILE c0, c1, rowf, colf, bm0, ..., bm11` (R202): the colour overwrites the pixel. -/
def execTile (c0 c1 : Color) (rowf : BitVec 5) (colf : BitVec 6) (bm : Bitmap) (s : State) :
    Host.Outcome State Fault Refusal :=
  paintTile (fun _ v => v) c0 c1 rowf colf bm s

/-- `TILEX c0, c1, rowf, colf, bm0, ..., bm11` (R203): the colour is XORed with the pixel. -/
def execTileX (c0 c1 : Color) (rowf : BitVec 5) (colf : BitVec 6) (bm : Bitmap) (s : State) :
    Host.Outcome State Fault Refusal :=
  paintTile (fun p v => p ^^^ v) c0 c1 rowf colf bm s

end Sys2Proof.Machine
end

