-- ==== Sys2Proof/Machine/Dispatch.lean ====
section
/-! DEFINITION. The dispatch of a decoded instruction to its meaning (spec/40_packet_dispatch.md R135). -/

namespace Sys2Proof.Machine

def exec (i : Instr) (s : State) : Host.Outcome State Fault Refusal :=
  match i with
  | .memPreset color rep => Sys2Proof.Machine.execMemPreset color rep s
  | .borderPreset color rep => Sys2Proof.Machine.execBorderPreset color rep s
  | .tile c0 c1 rowf colf bm => Sys2Proof.Machine.execTile c0 c1 rowf colf bm s
  | .scrollP color hcmd hoff vcmd voff => Sys2Proof.Machine.execScrollP color hcmd hoff vcmd voff s
  | .scrollC color hcmd hoff vcmd voff => Sys2Proof.Machine.execScrollC color hcmd hoff vcmd voff s
  | .palLo rgb => Sys2Proof.Machine.execPalLo rgb s
  | .palHi rgb => Sys2Proof.Machine.execPalHi rgb s
  | .tileX c0 c1 rowf colf bm => Sys2Proof.Machine.execTileX c0 c1 rowf colf bm s
  | .nop => Sys2Proof.Machine.execNop s

end Sys2Proof.Machine
end

