-- ==== Sys2Proof/Machine/Packet.lean ====
section
/-! DEFINITION. The one step of the block around an instruction (spec/40_packet_dispatch.md R132), over the meaning `run` of
a decoded instruction; `step` applies it to `exec`. -/

namespace Sys2Proof.Machine

/-- The phases of R132 on a record, from the state `s` at the start of the step: parse, policy clear, command check and
dispatch, emit. A record that is not 24 bytes long raises `MalformedPacket` (60_exceptions.md R281). -/
def runRecord (run : Instr → State → Host.Outcome State Fault Refusal) (r : Record) (s : State) :
    Host.Outcome State Fault Refusal :=
  match decode r with
  | .error (.malformedPacket n) => .next (finishStep s (raise (.malformedPacket n) s))
  | .ok i => mapNext (finishStep s) (run i (policyClear s))

/-- The host's next action: a record is one step of the block (R131), a reset comes between two steps (R320); with none
pending the block holds its state (60_exceptions.md R292). -/
def stepWith (run : Instr → State → Host.Outcome State Fault Refusal) (s : State) : Host.Outcome State Fault Refusal :=
  match s.input with
  | [] => .next s
  | .reset b0 :: rest => hostReset b0 { s with input := rest }
  | .packet r alloc :: rest => runRecord run r (beginStep alloc rest s)

/-- A buffer the host may grant: not the one held (60_exceptions.md R289). -/
def freshBuffer (s : State) : Buffer := { handle := s.live.handle + 1, pad := 0, mem := [] }

/-- The host hands over a record next, with a buffer to grant if it is asked for one. -/
def offerRecord (r : Record) (s : State) : State := { s with input := .packet r (.grant (freshBuffer s)) :: s.input }

end Sys2Proof.Machine
end

