-- ==== Sys2Proof/Machine/Step.lean ====
section
/-! DEFINITION. The step of the machine, and where it takes its next instruction from. -/

namespace Sys2Proof.Machine

/-- One step: the host's next action (`stepWith`), a decoded instruction run by `exec`. -/
def step (s : State) : Host.Outcome State Fault Refusal := stepWith exec s

/-- The state with a table row's word (zeros above it) as the record the host hands over next: the block has no program
counter and no program memory (spec/10_state.md R32), so the instruction a step runs is the next record of its input. -/
def State.withFetchWord (s : State) (nbits w : Nat) : State := offerRecord (tableRecord nbits w) s

end Sys2Proof.Machine
end

