-- ==== Sys2Proof/Safety.lean ====
section
/-! DEFINITION. What a good state is, in the terms the statements use: the invariants of spec/10_state.md R34, R36, R37 and
44_scroll.md R249, the canonical form of a buffer's bytes, and the host's duty of 60_exceptions.md R289. -/

namespace Sys2Proof.Machine

/-- A buffer's bytes are in canonical form, and none but pixels of the canvas is listed: padding is not state
(spec/20_memory.md R61). Every content of a buffer's pixels has exactly one such form. -/
abbrev Buffer.canonical (b : Buffer) : Prop :=
  Memory.wf b.mem ∧ ∀ c ∈ b.mem, offsetInRect b.stride wholeCanvas c.1 = true

/-- Every byte of the buffer is a palette index 0..15 (R34). -/
abbrev Buffer.indexed (b : Buffer) : Prop := ∀ c ∈ b.mem, c.2.toNat < 16

/-- The buffer a host action hands over, if any, is in canonical form, whatever its content (R235: any content). -/
def HostAction.canonical : HostAction → Prop
  | .packet _ (.grant b) => b.canonical
  | .packet _ .deny => True
  | .reset b0 => b0.canonical

/-- The invariant of the machine between two steps. -/
structure State.Inv (s : State) : Prop where
  /-- The live buffer's bytes are in canonical form. -/
  liveCanonical : s.live.canonical
  /-- Every pixel is a palette index (R34). -/
  liveIndexed : s.live.indexed
  /-- `HS` is in 0..5 (R37). -/
  hsRange : s.hs.toNat ≤ hsMax
  /-- `VS` is in 0..11 (R37). -/
  vsRange : s.vs.toNat ≤ vsMax
  /-- The double-buffer controller is idle (R249). -/
  idle : s.phase = .idle
  /-- No back buffer is held (R43, R249). -/
  oneBuffer : s.pending = none
  /-- The host's pending actions hand over buffers in canonical form. -/
  inputCanonical : ∀ act ∈ s.input, act.canonical

/-- Every channel of every entry is a multiple of 17 (R36). -/
abbrev paletteScaled (p : Palette) : Prop :=
  ∀ i : Fin 16, p[i].r.toNat % colorScale = 0 ∧ p[i].g.toNat % colorScale = 0 ∧ p[i].b.toNat % colorScale = 0

/-- The host keeps its duty toward an acquisition (R289): a buffer it grants is not the one the block holds. -/
def grantsFresh (alloc : Alloc) (s : State) : Prop :=
  match alloc with
  | .grant b => b.handle ≠ s.live.handle
  | .deny => True

/-- The host's next action keeps that duty. -/
def State.hostDutiful (s : State) : Prop :=
  match s.input with
  | .packet _ alloc :: _ => grantsFresh alloc s
  | _ => True

/-- A record of 24 bytes whose decode word selects the opcode row of the given pattern (spec/30_encoding.md R95). -/
def RecordSelects (pattern : BitVec 16) (r : Record) : Prop :=
  r.length = packetSize ∧ decodeWord r &&& 0x3F3F = pattern

/-- The instruction is a palette load (R183). -/
def isPaletteLoad : Instr → Bool
  | .palLo _ | .palHi _ => true
  | .memPreset _ _ | .borderPreset _ _ | .tile _ _ _ _ _ | .tileX _ _ _ _ _ | .scrollP _ _ _ _ _
  | .scrollC _ _ _ _ _ | .nop => false

/-- The operands a scroll instruction moves by: `hcmd`, `hoff`, `vcmd`, `voff`; none for any other (R230). -/
def scrollOperands : Instr → Option (BitVec 2 × BitVec 3 × BitVec 2 × BitVec 4)
  | .scrollP _ hcmd hoff vcmd voff | .scrollC _ hcmd hoff vcmd voff => some (hcmd, hoff, vcmd, voff)
  | .memPreset _ _ | .borderPreset _ _ | .tile _ _ _ _ _ | .tileX _ _ _ _ _ | .palLo _ | .palHi _ | .nop => none

/-- The instruction is a scroll whose net shift from the state's offsets is not zero (R233). -/
def shifts (i : Instr) (s : State) : Prop :=
  ∃ hcmd hoff vcmd voff, scrollOperands i = some (hcmd, hoff, vcmd, voff) ∧
    ¬ (hinc hcmd hoff s.hs = 0 ∧ vinc vcmd voff s.vs = 0)

/-- Pixel `(x, y)` is a border pixel (R69, R162). -/
abbrev onBorder (x y : Nat) : Prop :=
  y < borderHeight ∨ fullHeight - borderHeight ≤ y ∨ x < borderWidth ∨ fullWidth - borderWidth ≤ x

/-- The offset is no pixel's: it lies in the padding or beyond the buffer (R61). -/
def offCanvas (b : Buffer) (a : Nat) : Prop := offsetInRect b.stride wholeCanvas a = false

/-- Two states show the same picture to every rule: equal pixels, palette, offsets and flag, under the same policy; the
buffers' handles, strides and padding may differ (R61). -/
structure SamePicture (s t : State) : Prop where
  pixels : ∀ x < fullWidth, ∀ y < fullHeight, pixelAt s.live x y = pixelAt t.live x y
  pal : s.pal = t.pal
  hs : s.hs = t.hs
  vs : s.vs = t.vs
  pcf : s.pcf = t.pcf
  pcfPolicy : s.params.pcfPolicy = t.params.pcfPolicy

/-- Two answers to an acquisition of the same kind (R131). -/
def sameKind : Alloc → Alloc → Prop
  | .grant _, .grant _ => True
  | .deny, .deny => True
  | .grant _, .deny => False
  | .deny, .grant _ => False

/-- Two frames show the same picture to the sink (R137): equal pixels, palette and flag. -/
structure SameFrame (f g : Frame) : Prop where
  pixels : ∀ x < fullWidth, ∀ y < fullHeight, pixelAt f.buffer x y = pixelAt g.buffer x y
  pal : f.pal = g.pal
  pcf : f.pcf = g.pcf

/-- Two requests of the same kind: both `Acquire()`, or both a `Release`, whatever the handles (R131). -/
def HostRequest.sameKind : HostRequest → HostRequest → Prop
  | .acquire, .acquire => True
  | .release _, .release _ => True
  | .acquire, .release _ => False
  | .release _, .acquire => False

/-- A pixel of a vacated band (spec/44_scroll.md R244): the flat colour, or the old canvas at `(sx, sy)`. -/
def bandPixel (mode : FillMode) (o : Buffer) (sx sy : Int) : Byte :=
  match mode with
  | .preset color => pixelByte color
  | .copy => pixelAt o sx.toNat sy.toNat

/-- The closed form of R244: pixel `(x, y)` of the new canvas after a scroll of the old one by `(hi, vi)`, the first case
that applies. -/
def scrolledPixel (mode : FillMode) (hi vi : Int) (o : Buffer) (x y : Nat) : Byte :=
  if hi > 0 ∧ (x : Int) < hi then bandPixel mode o (x + 300 - hi) y
  else if hi < 0 ∧ (x : Int) ≥ 300 + hi then bandPixel mode o (x - 300 - hi) y
  else if vi > 0 ∧ (y : Int) < vi then bandPixel mode o x (y + 216 - vi)
  else if vi < 0 ∧ (y : Int) ≥ 216 + vi then bandPixel mode o x (y - 216 - vi)
  else pixelAt o (x - hi).toNat (y - vi).toNat

end Sys2Proof.Machine
end

