-- ==== Sys2Proof/Certificates/Slice0/Obligations.lean ====
section
/-! DEFINITION. The statements for the provers, from the spec's numbered rules. An instruction's statement says which
records decode to it, the next state `exec` answers (a record update of the state before, so that every field it does not
name is unchanged), every pixel of it, and every byte outside the pixels it stores to. -/

open Sys2Proof Sys2Proof.Machine

/-! ### Encoding -/

/-- Packets written out byte by byte from 30_encoding.md R91 to R99 and the vectors E9, V88, P2, V7: `MEMPRESET 3, 0`,
`BORDERPRESET 7, 0` with noise in every ignored place, `TILE 4, 9, 1, 1, ...`, `TILEX 12, 10, 2, 3, ...`, a `SCROLLP`
and a `SCROLLC` with clamped offsets, `PALLO`, `PALHI`, a foreign command and an unrecognised code. Derived: the byte
layout is decision D2 of the spec (notes/assumptions/9.md). -/
def Obligations.SamplePacketsDecode : Prop :=
  decode [0x09, 0x01, 0, 0, 3, 0, 0, 0, 0, 0, 0, 0, 0, 0, 0, 0, 0, 0, 0, 0, 0, 0, 0, 0] = .ok (.memPreset 3 0) ∧
  decode [0xC9, 0x82, 0xAA, 0x55, 0x17, 0x20, 9, 9, 9, 9, 9, 9, 9, 9, 9, 9, 9, 9, 9, 9, 0xFF, 0xEE, 0xDD, 0xCC] =
    .ok (.borderPreset 7 0) ∧
  decode [0x09, 0x06, 0, 0, 4, 9, 1, 1, 0x2A, 0x15, 0x2A, 0x15, 0x2A, 0x15, 0x2A, 0x15, 0x2A, 0x15, 0x2A, 0x15, 0, 0, 0, 0] =
    .ok (.tile 4 9 1 1 #v[0x2A, 0x15, 0x2A, 0x15, 0x2A, 0x15, 0x2A, 0x15, 0x2A, 0x15, 0x2A, 0x15]) ∧
  decode [0x09, 0x26, 0, 0, 12, 10, 0xE2, 0xC3, 0x2A, 0xEA, 0, 0, 0, 0, 0, 0, 0, 0, 0, 0x21, 0, 0, 0, 0] =
    .ok (.tileX 12 10 2 3 #v[0x2A, 0x2A, 0, 0, 0, 0, 0, 0, 0, 0, 0, 0x21]) ∧
  decode [0x09, 0x14, 0, 0, 4, 0x17, 0x2F, 0, 0, 0, 0, 0, 0, 0, 0, 0, 0, 0, 0, 0, 0, 0, 0, 0] = .ok (.scrollP 4 1 5 2 11) ∧
  decode [0x09, 0x18, 0, 0, 0xF0, 0x2D, 0xDA, 0, 0, 0, 0, 0, 0, 0, 0, 0, 0, 0, 0, 0, 0, 0, 0, 0] = .ok (.scrollC 0 2 5 1 10) ∧
  decode [0x09, 0x1E, 0, 0, 0, 0, 0x3C, 0, 0x03, 0x30, 0, 0x0F, 0x3F, 0x30, 0x03, 0x3F, 0x3C, 0x0F, 0x3F, 0x3F, 0, 0, 0, 0] =
    .ok (.palLo #v[0x000, 0xF00, 0x0F0, 0x00F, 0xFF0, 0x0FF, 0xF0F, 0xFFF]) ∧
  decode [0x09, 0x1F, 0, 0, 0x22, 0x08, 0x11, 0x04, 0x04, 0x23, 0x2A, 0x3C, 0, 0, 0, 0, 0, 0, 0, 0, 0, 0, 0, 0] =
    .ok (.palHi #v[0x888, 0x444, 0x123, 0xABC, 0, 0, 0, 0]) ∧
  decode [0x3F, 0x01, 0, 0, 5, 0, 0, 0, 0, 0, 0, 0, 0, 0, 0, 0, 0, 0, 0, 0, 0, 0, 0, 0] = .ok .nop ∧
  decode [0x09, 0x05, 0, 0, 5, 0, 0, 0, 0, 0, 0, 0, 0, 0, 0, 0, 0, 0, 0, 0, 0, 0, 0, 0] = .ok .nop

/-- Decoding the packet of a well-formed instruction gives the instruction back: every operand at every value. -/
def Obligations.DecodeOfEncodeIsTheInstruction : Prop :=
  ∀ i : Instr, i.WellFormed → decode (encode i) = .ok i

/-- A record of 24 bytes decodes to an instruction, a well-formed one; a record of any other length is refused with its
length (R90, R101, R133). -/
def Obligations.RecordLengthAloneDecidesParsing : Prop :=
  ∀ r : Record,
    (r.length = 24 → ∃ i : Instr, i.WellFormed ∧ decode r = .ok i) ∧
    (r.length ≠ 24 → decode r = .error (.malformedPacket r.length))

/-- The ignored bytes 2, 3, 20..23 and the ignored bits 7:6 of every other byte never change the decoding (R91, R92,
R93, R97, R98, R101). Derived: the byte layout is decision D2 of the spec (notes/assumptions/9.md). -/
def Obligations.IgnoredBytesAndHighBitsDoNotMatter : Prop :=
  ∀ r r' : Record, r.length = 24 → r'.length = 24 →
    low6 (packetByte r 0) = low6 (packetByte r' 0) → low6 (packetByte r 1) = low6 (packetByte r' 1) →
    (∀ i < 16, low6 (dataByte r i) = low6 (dataByte r' i)) →
    decode r = decode r'

/-- The decode word; the eight rows, each with its mask, its match `0x0900 | ins` and the code `ins` of its instruction
(R94); that at most one row matches a word, and that `NOP` is taken exactly when none does (R95). Derived: R95 is marked in
the spec as derived. -/
def Obligations.OpcodeRowsExcludeEachOther : Prop :=
  (∀ r : Record, (decodeWord r).toNat = (packetByte r 0).toNat <<< 8 ||| (packetByte r 1).toNat) ∧
  (∀ row ∈ opcodeTable, row.mask = 0x3F3F ∧ row.pattern &&& 0xFF00 = 0x0900 ∧ row.opcode ≠ .nop) ∧
  opcodeTable.length = 8 ∧
  opcodeTable.map (fun row => (row.opcode, row.pattern.toNat &&& 0xFF)) =
    [(.memPreset, 1), (.borderPreset, 2), (.tile, 6), (.scrollP, 20), (.scrollC, 24), (.palLo, 30), (.palHi, 31),
     (.tileX, 38)] ∧
  ∀ w : BitVec 16,
    (∀ row ∈ opcodeTable, ∀ row' ∈ opcodeTable, w &&& row.mask = row.pattern → w &&& row'.mask = row'.pattern →
      row = row') ∧
    (∀ row ∈ opcodeTable, w &&& row.mask = row.pattern → opcodeOf w = row.opcode) ∧
    (opcodeOf w = .nop ↔ ∀ row ∈ opcodeTable, w &&& row.mask ≠ row.pattern)

/-- The command and the instruction code select the instruction (R92, R93, R94). -/
def Obligations.CommandAndCodeSelectTheInstruction : Prop :=
  ∀ r : Record,
    opcodeOf (decodeWord r) =
      if (packetByte r 0).toNat &&& 0x3F = 0x09 then
        let ins := (packetByte r 1).toNat &&& 0x3F
        if ins = 1 then .memPreset else if ins = 2 then .borderPreset else if ins = 6 then .tile
        else if ins = 20 then .scrollP else if ins = 24 then .scrollC else if ins = 30 then .palLo
        else if ins = 31 then .palHi else if ins = 38 then .tileX else .nop
      else .nop

/-- The PRESET operands of both instructions (R96). -/
def Obligations.PresetOperandsAreLowNibbles : Prop :=
  ∀ r : Record,
    (RecordSelects 0x0901 r → ∃ color rep, decode r = .ok (.memPreset color rep) ∧
      color.toNat = (dataByte r 0).toNat &&& 0x0F ∧ rep.toNat = (dataByte r 1).toNat &&& 0x0F) ∧
    (RecordSelects 0x0902 r → ∃ color rep, decode r = .ok (.borderPreset color rep) ∧
      color.toNat = (dataByte r 0).toNat &&& 0x0F ∧ rep.toNat = (dataByte r 1).toNat &&& 0x0F)

/-- The PALETTE operands of both instructions (R97): bits 11:0 of `color_k` of each pair of data bytes; then `color_k` of any
two bytes, all 14 bits of it, and its three channels as the bits of the two bytes. -/
def Obligations.PaletteOperandsAreTwelveBitEntries : Prop :=
  (∀ r : Record,
    (RecordSelects 0x091E r → ∃ rgb : ColorEntries, decode r = .ok (.palLo rgb) ∧
      ∀ k : Fin 8, rgb[k].toNat =
        ((dataByte r (2 * k)).toNat <<< 6 ||| (dataByte r (2 * k + 1)).toNat &&& 0x3F) &&& 0xFFF) ∧
    (RecordSelects 0x091F r → ∃ rgb : ColorEntries, decode r = .ok (.palHi rgb) ∧
      ∀ k : Fin 8, rgb[k].toNat =
        ((dataByte r (2 * k)).toNat <<< 6 ||| (dataByte r (2 * k + 1)).toNat &&& 0x3F) &&& 0xFFF)) ∧
  ∀ hi lo : Byte,
    (assembleColor hi lo).toNat = (hi.toNat <<< 6 ||| lo.toNat &&& 0x3F) ∧
    (colorEntry hi lo).extractLsb' 8 4 = hi.extractLsb' 2 4 ∧
    (colorEntry hi lo).extractLsb' 4 4 = hi.extractLsb' 0 2 ++ lo.extractLsb' 4 2 ∧
    (colorEntry hi lo).extractLsb' 0 4 = lo.extractLsb' 0 4

/-- The TILE operands of both instructions, and where they stand for a place and a pixel (R98). -/
def Obligations.TileOperandsAreMaskedFields : Prop :=
  (∀ r : Record,
    (RecordSelects 0x0906 r → ∃ c0 c1 rowf colf bm, decode r = .ok (.tile c0 c1 rowf colf bm) ∧
      c0.toNat = (dataByte r 0).toNat &&& 0x0F ∧ c1.toNat = (dataByte r 1).toNat &&& 0x0F ∧
      rowf.toNat = (dataByte r 2).toNat &&& 0x1F ∧ colf.toNat = (dataByte r 3).toNat &&& 0x3F ∧
      ∀ j : Fin 12, bm[j].toNat = (dataByte r (4 + j)).toNat &&& 0x3F) ∧
    (RecordSelects 0x0926 r → ∃ c0 c1 rowf colf bm, decode r = .ok (.tileX c0 c1 rowf colf bm) ∧
      c0.toNat = (dataByte r 0).toNat &&& 0x0F ∧ c1.toNat = (dataByte r 1).toNat &&& 0x0F ∧
      rowf.toNat = (dataByte r 2).toNat &&& 0x1F ∧ colf.toNat = (dataByte r 3).toNat &&& 0x3F ∧
      ∀ j : Fin 12, bm[j].toNat = (dataByte r (4 + j)).toNat &&& 0x3F)) ∧
  (∀ rowf : BitVec 5, tileRow rowf = rowf.toNat * 12) ∧ (∀ colf : BitVec 6, tileCol colf = colf.toNat * 6) ∧
  ∀ (bm : Bitmap) (j : Fin 12), ∀ i < 6, tileBit bm i j = bm[j].toNat.testBit (5 - i)

/-- The SCROLL operands of both instructions, with their clamps (R99). -/
def Obligations.ScrollOperandsAreClamped : Prop :=
  ∀ r : Record,
    (RecordSelects 0x0914 r → ∃ color hcmd hoff vcmd voff, decode r = .ok (.scrollP color hcmd hoff vcmd voff) ∧
      color.toNat = (dataByte r 0).toNat &&& 0x0F ∧
      hcmd.toNat = (dataByte r 1).toNat >>> 4 &&& 0x3 ∧ hoff.toNat = min ((dataByte r 1).toNat &&& 0x7) 5 ∧
      vcmd.toNat = (dataByte r 2).toNat >>> 4 &&& 0x3 ∧ voff.toNat = min ((dataByte r 2).toNat &&& 0xF) 11) ∧
    (RecordSelects 0x0918 r → ∃ color hcmd hoff vcmd voff, decode r = .ok (.scrollC color hcmd hoff vcmd voff) ∧
      color.toNat = (dataByte r 0).toNat &&& 0x0F ∧
      hcmd.toNat = (dataByte r 1).toNat >>> 4 &&& 0x3 ∧ hoff.toNat = min ((dataByte r 1).toNat &&& 0x7) 5 ∧
      vcmd.toNat = (dataByte r 2).toNat >>> 4 &&& 0x3 ∧ voff.toNat = min ((dataByte r 2).toNat &&& 0xF) 11)

/-! ### Memory -/

/-- `RectFill` (R70): a rectangle inside the canvas gets the colour, every other byte stays; a rectangle that leaves the
canvas is refused to the caller (the model's fault of R63). Derived: the refusal outside the canvas is DEDUCED
(notes/assumptions/19.md). -/
def Obligations.RectFillWritesItsRectangle : Prop :=
  ∀ (b : Buffer) (t : Rect) (c : Color),
    (t.x + t.w ≤ 300 ∧ t.y + t.h ≤ 216 → ∃ b', rectFill b t c = some b' ∧ b'.handle = b.handle ∧ b'.pad = b.pad ∧
      (∀ x < 300, ∀ y < 216,
        (t.x ≤ x ∧ x < t.x + t.w) ∧ (t.y ≤ y ∧ y < t.y + t.h) → (pixelAt b' x y).toNat = c.toNat) ∧
      (∀ a, offsetInRect b.stride t a = false → readByte b'.mem a = readByte b.mem a)) ∧
    (300 < t.x + t.w ∨ 216 < t.y + t.h → rectFill b t c = none)

/-- `RectCopy` (R71): the destination rectangle of the new canvas gets the source rectangle of the old one, every other
byte of the new canvas stays; rectangles that leave the canvas are refused to the caller. Derived: the refusal outside
the canvas is DEDUCED (notes/assumptions/19.md). -/
def Obligations.RectCopyMovesItsRectangle : Prop :=
  ∀ (n o : Buffer) (dx dy : Nat) (src : Rect),
    (dx + src.w ≤ 300 ∧ dy + src.h ≤ 216 ∧ src.x + src.w ≤ 300 ∧ src.y + src.h ≤ 216 →
      ∃ n', rectCopy n o dx dy src = some n' ∧ n'.handle = n.handle ∧ n'.pad = n.pad ∧
      (∀ i < src.w, ∀ j < src.h, pixelAt n' (dx + i) (dy + j) = pixelAt o (src.x + i) (src.y + j)) ∧
      (∀ a, offsetInRect n.stride ⟨dx, dy, src.w, src.h⟩ a = false → readByte n'.mem a = readByte n.mem a)) ∧
    (300 < dx + src.w ∨ 216 < dy + src.h ∨ 300 < src.x + src.w ∨ 216 < src.y + src.h →
      rectCopy n o dx dy src = none)

/-- Pixel `(x, y)` is the byte at `y · STRIDE + x`, the stride at least 300; distinct pixels are distinct bytes (R61,
R62). Derived: R61 rests on decision D14 of the spec. -/
def Obligations.PixelsAreDistinctBytesOfTheBuffer : Prop :=
  ∀ b : Buffer, 300 ≤ b.stride ∧
    (∀ x y, pixelAt b x y = readByte b.mem (y * b.stride + x)) ∧
    ∀ x < 300, ∀ y < 216, ∀ x' < 300, ∀ y' < 216,
      pixelOffset b.stride x y = pixelOffset b.stride x' y' → x = x' ∧ y = y'

/-- The rectangle operations keep a buffer's bytes in canonical form. Derived: the form is the model's choice
(notes/assumptions/7.md). -/
def Obligations.RectOperationsKeepCanonicalForm : Prop :=
  (∀ (b b' : Buffer) (t : Rect) (f : Nat → Nat → Byte → Byte), b.canonical → updateRect b t f = some b' → b'.canonical) ∧
  ∀ (n o n' : Buffer) (dx dy : Nat) (src : Rect), n.canonical → o.canonical → rectCopy n o dx dy src = some n' →
    n'.canonical

/-! ### The step -/

/-- A record that decodes to `i` makes the step run `exec i` on the state at the start of the step after the policy
clear: the record and its answer are taken from the input, the output record and the request list start empty (R131,
R132). After it, a step that raised an error keeps the state from its start, with the error's output record and requests
(R285); any other emits the frame (R137). `exec` refuses or answers a next state, and never faults. Derived: the fields
are the model's form of R131 (notes/assumptions/1.md); R137 and R138 rest on decisions D10 and D6 of the spec. -/
def Obligations.StepRunsTheDecodedInstruction : Prop :=
  ∀ (s : State) (r : Record) (al : Alloc) (rest : List HostAction) (i : Instr),
    s.input = .packet r al :: rest → decode r = .ok i →
    let start : State := { s with input := rest, alloc := al, out := none, events := [] }
    let cleared : State := if s.params.pcfPolicy = .perPacket then { start with pcf := false } else start
    (∀ t, exec i cleared = .next t →
      (∀ e, t.out = some (.error e) → step s = .next { start with out := t.out, events := t.events }) ∧
      ((∀ e, t.out ≠ some (.error e)) → step s = .next { t with out := some (.ok ⟨t.live, t.pal, t.pcf⟩) })) ∧
    (∀ e, exec i cleared = .refused e → step s = .refused e) ∧
    ∀ e, exec i cleared ≠ .fault e

/-- A record that is not 24 bytes long: the state is unchanged, the output record is `MalformedPacket` with the received
length, no request is issued and no frame emitted (R281). Derived: the recorded length is decision D9 of the spec
(notes/assumptions/12.md). -/
def Obligations.WrongLengthIsMalformedPacket : Prop :=
  ∀ (s : State) (r : Record) (al : Alloc) (rest : List HostAction),
    s.input = .packet r al :: rest → r.length ≠ 24 →
    step s = .next { s with
      input := rest, alloc := al, out := some (.error (.malformedPacket r.length)), events := [] }

/-- A packet whose command is not 0x09, or whose code is none of the eight, is a no-op: `exec` answers the same state, and
the step changes nothing but the flag the policy clears, and emits the frame (R134, R136). -/
def Obligations.UnrecognisedPacketsAreNoOps : Prop :=
  (∀ s : State, exec .nop s = .next s) ∧
  ∀ (s : State) (r : Record) (al : Alloc) (rest : List HostAction),
    s.input = .packet r al :: rest → r.length = 24 →
    ((packetByte r 0).toNat &&& 0x3F ≠ 0x09 ∨ (packetByte r 1).toNat &&& 0x3F ∉ [1, 2, 6, 20, 24, 30, 31, 38]) →
    decode r = .ok .nop ∧
    step s = .next { s with
      input := rest, alloc := al, events := [],
      pcf := if s.params.pcfPolicy = .perPacket then false else s.pcf,
      out := some (.ok ⟨s.live, s.pal, if s.params.pcfPolicy = .perPacket then false else s.pcf⟩) }

/-- Every step on a record ends with the frame of its state, or with an error, no frame, and the state as it was (R137,
R285). Derived: no frame after an error is decision D10 of the spec (notes/assumptions/12.md). -/
def Obligations.StepEmitsFrameOrLeavesStateUnchanged : Prop :=
  ∀ (s t : State) (r : Record) (al : Alloc) (rest : List HostAction),
    s.input = .packet r al :: rest → step s = .next t →
    t.out = some (.ok ⟨t.live, t.pal, t.pcf⟩) ∨
    ∃ e, t.out = some (.error e) ∧
      t = { s with input := rest, alloc := al, out := some (.error e), events := t.events }

/-- For every packet of 24 bytes and every host that keeps its duty, from every state, the step ends in `OK` or in
`BufferAllocationFailure`; the latter only for a scroll with a nonzero net shift when the answer is `Deny` (R139).
Derived: R139 is marked in the spec as derived. -/
def Obligations.EveryPacketEndsInOkOrAllocationFailure : Prop :=
  ∀ (s : State) (r : Record) (al : Alloc) (rest : List HostAction),
    s.input = .packet r al :: rest → r.length = 24 → grantsFresh al s →
    ∃ t, step s = .next t ∧
      (t.out = some (.ok ⟨t.live, t.pal, t.pcf⟩) ∨
       t.out = some (.error .bufferAllocationFailure) ∧ al = .deny ∧ shifts (decodePacket r) s)

/-- From every state, whatever the host's next action, the step never faults; and it answers a next state whenever the host
grants no buffer the block holds (R63, R139, R289). -/
def Obligations.StepNeverFaults : Prop :=
  ∀ s : State, (∀ e, step s ≠ .fault e) ∧ (s.hostDutiful → ∃ t, step s = .next t)

/-- A step takes exactly the host's next action and never changes a parameter (R7, R130, R131); with no action pending
the machine holds its state (R292). Derived: the idle step is DEDUCED (notes/assumptions/18.md). -/
def Obligations.StepTakesOneHostAction : Prop :=
  ∀ s t : State, step s = .next t →
    t.input = s.input.tail ∧ t.params = s.params ∧ (s.input = [] → t = s)

/-- The flag after a step on a record (R138, R183): under `STICKY` it stays and a palette load sets it; under
`PER_PACKET` it is 1 exactly when the packet was a palette load; under both, a step that ends in an error leaves it
unchanged. Derived: the policies are decision D6 of the spec (notes/assumptions/4.md). -/
def Obligations.PaletteFlagFollowsThePolicy : Prop :=
  ∀ (s t : State) (r : Record) (al : Alloc) (rest : List HostAction),
    s.input = .packet r al :: rest → step s = .next t →
    ((∃ e, t.out = some (.error e)) → t.pcf = s.pcf) ∧
    ((∀ e, t.out ≠ some (.error e)) → r.length = 24 ∧
      (s.params.pcfPolicy = .sticky → t.pcf = (s.pcf || isPaletteLoad (decodePacket r))) ∧
      (s.params.pcfPolicy = .perPacket → t.pcf = isPaletteLoad (decodePacket r)))

/-- The offsets change only in a step whose instruction is a scroll and which ends in `OK`, and then to its operands (R232,
R142, R246). Derived: R142 and R246 are marked in the spec as derived, R142 from R132, R232 and R246, R246 from R232 and
R233. -/
def Obligations.OnlyScrollsMoveTheOffsets : Prop :=
  ∀ (s t : State) (r : Record) (al : Alloc) (rest : List HostAction),
    s.input = .packet r al :: rest → step s = .next t →
    ((∃ e, t.out = some (.error e)) → t.hs = s.hs ∧ t.vs = s.vs) ∧
    ((∀ e, t.out ≠ some (.error e)) →
      match scrollOperands (decodePacket r) with
      | some (_, hoff, _, voff) => t.hs = hoff ∧ t.vs = voff
      | none => t.hs = s.hs ∧ t.vs = s.vs)

/-- The requests of every step (R248): none unless a scroll with nonzero net shift; then `Acquire()` and, if granted,
`Release` of the buffer live before, the granted one live after; if denied, `Acquire()` alone and nothing changed. The
live handle changes in no other step (R40). Derived: R248 is marked in the spec as derived; no request at zero shift is
decision D12 (notes/assumptions/11.md). -/
def Obligations.OnlyShiftingScrollsRequestBuffers : Prop :=
  ∀ (s t : State) (r : Record) (al : Alloc) (rest : List HostAction),
    s.input = .packet r al :: rest → step s = .next t →
    ((r.length = 24 ∧ shifts (decodePacket r) s) →
      match al with
      | .grant b => t.events = [.acquire, .release s.live.handle] ∧ t.live.handle = b.handle ∧ t.live.pad = b.pad
      | .deny => t = { s with
          input := rest, alloc := al, out := some (.error .bufferAllocationFailure), events := [.acquire] }) ∧
    (¬ (r.length = 24 ∧ shifts (decodePacket r) s) →
      t.events = [] ∧ t.live.handle = s.live.handle ∧ t.live.pad = s.live.pad)

/-- What each instruction leaves untouched (the table of R42), whenever `exec` answers a next state: for every instruction,
the parameters, the input and the answer; the palette and the flag but for palette loads; the offsets but for scrolls; the
live buffer, the controller and the requests for palette loads and `NOP`; the live buffer's handle and padding, the
controller, the output record and the requests, and every byte that is no pixel, for presets and tiles. -/
def Obligations.InstructionsLeaveTheRestUntouched : Prop :=
  ∀ (i : Instr) (s t : State), exec i s = .next t →
    t.params = s.params ∧ t.input = s.input ∧ t.alloc = s.alloc ∧
    (isPaletteLoad i = false → t.pal = s.pal ∧ t.pcf = s.pcf) ∧
    (scrollOperands i = none →
      t.hs = s.hs ∧ t.vs = s.vs ∧ t.phase = s.phase ∧ t.pending = s.pending ∧ t.out = s.out ∧ t.events = s.events ∧
      t.live.handle = s.live.handle ∧ t.live.pad = s.live.pad ∧
      ∀ a, offCanvas s.live a → readByte t.live.mem a = readByte s.live.mem a) ∧
    (isPaletteLoad i = true ∨ i = .nop → t.live = s.live)

/-! ### Presets -/

/-- `MEMPRESET` (R160, R161): its packets; with repeat 0 it completes with every pixel the colour and nothing else changed;
with a nonzero repeat it changes nothing. -/
def Obligations.MemPresetFillsTheCanvas : Prop :=
  (∀ r : Record, RecordSelects 0x0901 r → decode r = .ok (.memPreset (low4 (dataByte r 0)) (low4 (dataByte r 1)))) ∧
  ∀ (color : Color) (s : State),
    (∃ b, exec (.memPreset color 0) s = .next { s with live := b } ∧
      b.handle = s.live.handle ∧ b.pad = s.live.pad ∧
      (∀ x < 300, ∀ y < 216, (pixelAt b x y).toNat = color.toNat) ∧
      (∀ a, offCanvas s.live a → readByte b.mem a = readByte s.live.mem a)) ∧
    ∀ rep : BitVec 4, rep ≠ 0 → exec (.memPreset color rep) s = .next s

/-- `BORDERPRESET` (R162, R161): its packets; with repeat 0 it completes with the border the colour and every other byte,
the interior among them, unchanged; with a nonzero repeat it changes nothing. -/
def Obligations.BorderPresetFillsTheBorder : Prop :=
  (∀ r : Record, RecordSelects 0x0902 r →
    decode r = .ok (.borderPreset (low4 (dataByte r 0)) (low4 (dataByte r 1)))) ∧
  ∀ (color : Color) (s : State),
    (∃ b, exec (.borderPreset color 0) s = .next { s with live := b } ∧
      b.handle = s.live.handle ∧ b.pad = s.live.pad ∧
      (∀ x < 300, ∀ y < 216,
        (y < 12 ∨ 204 ≤ y ∨ x < 6 ∨ 294 ≤ x → (pixelAt b x y).toNat = color.toNat) ∧
        ((6 ≤ x ∧ x ≤ 293) ∧ (12 ≤ y ∧ y ≤ 203) → pixelAt b x y = pixelAt s.live x y)) ∧
      (∀ a, offCanvas s.live a → readByte b.mem a = readByte s.live.mem a)) ∧
    ∀ rep : BitVec 4, rep ≠ 0 → exec (.borderPreset color rep) s = .next s

/-! ### Palette loads -/

/-- `ColorDecode(hi, lo)` (R182): each channel is its four bits of `(hi << 6) | (lo & 0x3F)` times 17. -/
def Obligations.ColorDecodeScalesBySeventeen : Prop :=
  ∀ hi lo : Byte,
    (colorDecode hi lo).r.toNat = 17 * ((hi.toNat <<< 6 ||| lo.toNat &&& 0x3F) >>> 8 &&& 0xF) ∧
    (colorDecode hi lo).g.toNat = 17 * ((hi.toNat <<< 6 ||| lo.toNat &&& 0x3F) >>> 4 &&& 0xF) ∧
    (colorDecode hi lo).b.toNat = 17 * ((hi.toNat <<< 6 ||| lo.toNat &&& 0x3F) &&& 0xF)

/-- `PALLO` (R180, R183): a packet of it completes; entries 0..7 are decoded from its data bytes, entries 8..15 stay, the
flag is set, nothing else changes. -/
def Obligations.PalLoLoadsTheLowEntries : Prop :=
  (∀ (rgb : ColorEntries) (s : State), ∃ p : Palette,
    exec (.palLo rgb) s = .next { s with pal := p, pcf := true } ∧
    (∀ k : Fin 8, p[k.val] = rgbOf rgb[k]) ∧ ∀ k : Fin 8, p[8 + k.val] = s.pal[8 + k.val]) ∧
  ∀ (r : Record) (s : State), RecordSelects 0x091E r → ∃ rgb : ColorEntries, ∃ p : Palette,
    decode r = .ok (.palLo rgb) ∧ exec (.palLo rgb) s = .next { s with pal := p, pcf := true } ∧
    (∀ k : Fin 8, p[k.val] = colorDecode (dataByte r (2 * k)) (dataByte r (2 * k + 1))) ∧
    ∀ k : Fin 8, p[8 + k.val] = s.pal[8 + k.val]

/-- `PALHI` (R181, R183): a packet of it completes; entries 8..15 are decoded from its data bytes, entries 0..7 stay, the
flag is set, nothing else changes. -/
def Obligations.PalHiLoadsTheHighEntries : Prop :=
  (∀ (rgb : ColorEntries) (s : State), ∃ p : Palette,
    exec (.palHi rgb) s = .next { s with pal := p, pcf := true } ∧
    (∀ k : Fin 8, p[8 + k.val] = rgbOf rgb[k]) ∧ ∀ k : Fin 8, p[k.val] = s.pal[k.val]) ∧
  ∀ (r : Record) (s : State), RecordSelects 0x091F r → ∃ rgb : ColorEntries, ∃ p : Palette,
    decode r = .ok (.palHi rgb) ∧ exec (.palHi rgb) s = .next { s with pal := p, pcf := true } ∧
    (∀ k : Fin 8, p[8 + k.val] = colorDecode (dataByte r (2 * k)) (dataByte r (2 * k + 1))) ∧
    ∀ k : Fin 8, p[k.val] = s.pal[k.val]

/-- `PALLO` then `PALHI` write all sixteen entries, whatever the palette before; with all data bytes zero every entry is
(0, 0, 0) and the flag is set (R184). Derived: R184 is marked in the spec as derived. -/
def Obligations.LoadingBothHalvesReplacesThePalette : Prop :=
  (∀ (lo hi : ColorEntries) (s : State), ∃ t t', exec (.palLo lo) s = .next t ∧ exec (.palHi hi) t = .next t' ∧
    t'.pcf = true ∧ ∀ k : Fin 8, t'.pal[k.val] = rgbOf lo[k] ∧ t'.pal[8 + k.val] = rgbOf hi[k]) ∧
  ∀ s : State, ∃ t t', exec (.palLo (Vector.replicate 8 0)) s = .next t ∧
    exec (.palHi (Vector.replicate 8 0)) t = .next t' ∧ t'.pcf = true ∧ ∀ i : Fin 16, t'.pal[i] = ⟨0, 0, 0⟩

/-! ### Tiles -/

/-- A clipped tile, one with `row + VS > 204` or `col + HS > 294`, changes nothing at all (R201). -/
def Obligations.ClippedTilesChangeNothing : Prop :=
  ∀ (c0 c1 : Color) (rowf : BitVec 5) (colf : BitVec 6) (bm : Bitmap) (s : State),
    (tileClipped rowf colf s = true ↔
      rowf.toNat * 12 + s.vs.toNat > 204 ∨ colf.toNat * 6 + s.hs.toNat > 294) ∧
    (tileClipped rowf colf s = true →
      exec (.tile c0 c1 rowf colf bm) s = .next s ∧ exec (.tileX c0 c1 rowf colf bm) s = .next s)

/-- `TILE` (R200, R202): its packets; where the tile is clipped it completes with nothing changed; where it is not, pixel `(i, j)` of the tile becomes `c1` or
`c0` by its bitmap bit, and every byte outside the tile, and everything else, is unchanged. -/
def Obligations.TilePaintsItsPixels : Prop :=
  (∀ r : Record, RecordSelects 0x0906 r → decode r = .ok (.tile (low4 (dataByte r 0)) (low4 (dataByte r 1))
    (tileRowField (dataByte r 2)) (low6 (dataByte r 3)) (bitmapRows r))) ∧
  ∀ (c0 c1 : Color) (rowf : BitVec 5) (colf : BitVec 6) (bm : Bitmap) (s : State),
    (204 < rowf.toNat * 12 + s.vs.toNat ∨ 294 < colf.toNat * 6 + s.hs.toNat →
      exec (.tile c0 c1 rowf colf bm) s = .next s) ∧
    (rowf.toNat * 12 + s.vs.toNat ≤ 204 → colf.toNat * 6 + s.hs.toNat ≤ 294 →
      ∃ b, exec (.tile c0 c1 rowf colf bm) s = .next { s with live := b } ∧
        b.handle = s.live.handle ∧ b.pad = s.live.pad ∧
        (∀ i < 6, ∀ j : Fin 12,
          (pixelAt b (colf.toNat * 6 + i + s.hs.toNat) (rowf.toNat * 12 + j + s.vs.toNat)).toNat =
            if bm[j].toNat.testBit (5 - i) then c1.toNat else c0.toNat) ∧
        (∀ a, offsetInRect s.live.stride (tileRect rowf colf s) a = false → readByte b.mem a = readByte s.live.mem a))

/-- `TILEX` (R203): as `TILE`, with the colour XORed into the pixel's value before. -/
def Obligations.TileXXorsItsPixels : Prop :=
  (∀ r : Record, RecordSelects 0x0926 r → decode r = .ok (.tileX (low4 (dataByte r 0)) (low4 (dataByte r 1))
    (tileRowField (dataByte r 2)) (low6 (dataByte r 3)) (bitmapRows r))) ∧
  ∀ (c0 c1 : Color) (rowf : BitVec 5) (colf : BitVec 6) (bm : Bitmap) (s : State),
    (204 < rowf.toNat * 12 + s.vs.toNat ∨ 294 < colf.toNat * 6 + s.hs.toNat →
      exec (.tileX c0 c1 rowf colf bm) s = .next s) ∧
    (rowf.toNat * 12 + s.vs.toNat ≤ 204 → colf.toNat * 6 + s.hs.toNat ≤ 294 →
      ∃ b, exec (.tileX c0 c1 rowf colf bm) s = .next { s with live := b } ∧
        b.handle = s.live.handle ∧ b.pad = s.live.pad ∧
        (∀ i < 6, ∀ j : Fin 12,
          (pixelAt b (colf.toNat * 6 + i + s.hs.toNat) (rowf.toNat * 12 + j + s.vs.toNat)).toNat =
            (pixelAt s.live (colf.toNat * 6 + i + s.hs.toNat) (rowf.toNat * 12 + j + s.vs.toNat)).toNat ^^^
              (if bm[j].toNat.testBit (5 - i) then c1.toNat else c0.toNat)) ∧
        (∀ a, offsetInRect s.live.stride (tileRect rowf colf s) a = false → readByte b.mem a = readByte s.live.mem a))

/-- A tile that is not clipped targets pixels of the canvas only (R204), and the bytes of its rectangle are exactly
those of its 72 target pixels (R200). Derived: R204 is marked in the spec as derived. -/
def Obligations.PaintedTilesStayInTheCanvas : Prop :=
  ∀ (rowf : BitVec 5) (colf : BitVec 6) (s : State), tileClipped rowf colf s = false →
    (∀ i < 6, ∀ j < 12, tileCol colf + i + s.hs.toNat ≤ 299 ∧ tileRow rowf + j + s.vs.toNat ≤ 215) ∧
    ∀ a, offsetInRect s.live.stride (tileRect rowf colf s) a = true ↔
      ∃ i < 6, ∃ j < 12, a = (tileRow rowf + j + s.vs.toNat) * s.live.stride + (tileCol colf + i + s.hs.toNat)

/-- The clip table (R205), for the offsets in range: the painted row and column fields. Derived: R205 is marked in the
spec as derived. -/
def Obligations.ClipTableOfTheOffsets : Prop :=
  ∀ (rowf : BitVec 5) (colf : BitVec 6) (s : State), s.hs.toNat ≤ 5 → s.vs.toNat ≤ 11 →
    (tileClipped rowf colf s = false ↔
      rowf.toNat ≤ (if s.vs = 0 then 17 else 16) ∧ colf.toNat ≤ (if s.hs = 0 then 49 else 48))

/-- Two equal `TILEX` in a row restore every byte (R206); with the live buffer in canonical form, the whole state.
Derived: R206 is marked in the spec as derived. -/
def Obligations.EqualXorTilesCancel : Prop :=
  ∀ (c0 c1 : Color) (rowf : BitVec 5) (colf : BitVec 6) (bm : Bitmap) (s : State),
    ∃ t u, exec (.tileX c0 c1 rowf colf bm) s = .next t ∧ exec (.tileX c0 c1 rowf colf bm) t = .next u ∧
      (∀ a, readByte u.live.mem a = readByte s.live.mem a) ∧ u = { s with live := u.live } ∧
      (s.live.canonical → u = s)

/-! ### Scrolls -/

/-- The net shift and its bounds (R231, R100), for offsets in range. Derived: code 3 and the sign of down are decisions
D3 and D4 of the spec (notes/assumptions/8.md). -/
def Obligations.NetShiftIsBounded : Prop :=
  ∀ (hcmd vcmd : BitVec 2) (hoff hs : BitVec 3) (voff vs : BitVec 4),
    hoff.toNat ≤ 5 → hs.toNat ≤ 5 → voff.toNat ≤ 11 → vs.toNat ≤ 11 →
    (hinc hcmd hoff hs = (if hcmd = 1 then 6 else if hcmd = 2 then -6 else 0) + ((hoff.toNat : Int) - hs.toNat) ∧
      -11 ≤ hinc hcmd hoff hs ∧ hinc hcmd hoff hs ≤ 11) ∧
    (vinc vcmd voff vs = (if vcmd = 1 then 12 else if vcmd = 2 then -12 else 0) + ((voff.toNat : Int) - vs.toNat) ∧
      -23 ≤ vinc vcmd voff vs ∧ vinc vcmd voff vs ≤ 23) ∧
    (hcmd = 1 ∨ hcmd = 2 → hinc hcmd hoff hs ≠ 0) ∧ (vcmd = 1 ∨ vcmd = 2 → vinc vcmd voff vs ≠ 0)

/-- A scroll with zero net shift changes only the offsets, whatever the host's answer (R233). Derived: no acquisition is
decision D12 of the spec (notes/assumptions/11.md). -/
def Obligations.ZeroShiftScrollsChangeOnlyTheOffsets : Prop :=
  ∀ (color : Color) (hcmd : BitVec 2) (hoff : BitVec 3) (vcmd : BitVec 2) (voff : BitVec 4) (s : State),
    hinc hcmd hoff s.hs = 0 → vinc vcmd voff s.vs = 0 →
    exec (.scrollP color hcmd hoff vcmd voff) s = .next { s with hs := hoff, vs := voff } ∧
    exec (.scrollC color hcmd hoff vcmd voff) s = .next { s with hs := hoff, vs := voff }

/-- A step of either scroll with nonzero net shift whose buffer the host denies: `BufferAllocationFailure`, the state
unchanged, the offsets and the flag included, one `Acquire()` and no frame (R282). Derived: the error without info is
decision D9 of the spec (notes/assumptions/12.md). -/
def Obligations.DeniedScrollsFailWithoutEffect : Prop :=
  ∀ (s : State) (r : Record) (rest : List HostAction) (i : Instr),
    s.input = .packet r .deny :: rest → decode r = .ok i → shifts i s →
    step s = .next { s with
      input := rest, alloc := .deny, out := some (.error .bufferAllocationFailure), events := [.acquire] }

/-- A scroll packet resent after a denial (R286), its buffer now granted: the step ends as if the first packet had not been
sent, so with the same shift. -/
def Obligations.RetriedScrollsShiftTheSame : Prop :=
  ∀ (s : State) (r : Record) (b : Buffer) (rest : List HostAction) (i : Instr),
    s.input = .packet r .deny :: .packet r (.grant b) :: rest → decode r = .ok i → shifts i s →
    b.handle ≠ s.live.handle →
    ∃ t u, step s = .next t ∧ step t = .next u ∧ step { s with input := .packet r (.grant b) :: rest } = .next u ∧
      u.out = some (.ok ⟨u.live, u.pal, u.pcf⟩)

/-- `SCROLLP` (R242, R241, R232, R244): its packets; with nonzero net shift and a granted buffer not held, it completes:
the granted buffer is live and every pixel of it is the closed form, the vacated bands the flat colour; the offsets are
the new ones, the controller is idle, `Acquire()` and `Release(old)` were issued; every byte of the granted buffer that
is no pixel is as it was (R61); everything else is carried. Derived: code 3 and the sign of down are decisions D3 and D4
of the spec (notes/assumptions/8.md), R61 rests on D14, and R244 is marked as derived. -/
def Obligations.ScrollPShiftsAndFillsFlat : Prop :=
  (∀ r : Record, RecordSelects 0x0914 r → decode r = .ok (.scrollP (low4 (dataByte r 0)) (directionField (dataByte r 1))
    (clampH (dataByte r 1)) (directionField (dataByte r 2)) (clampV (dataByte r 2)))) ∧
  ∀ (color : Color) (hcmd : BitVec 2) (hoff : BitVec 3) (vcmd : BitVec 2) (voff : BitVec 4) (s : State) (b : Buffer),
    ¬ (hinc hcmd hoff s.hs = 0 ∧ vinc vcmd voff s.vs = 0) → s.alloc = .grant b → b.handle ≠ s.live.handle →
    ∃ n, exec (.scrollP color hcmd hoff vcmd voff) s = .next { s with
        live := n, hs := hoff, vs := voff, phase := .idle, pending := none,
        events := s.events ++ [.acquire, .release s.live.handle] } ∧
      n.handle = b.handle ∧ n.pad = b.pad ∧
      (∀ x < 300, ∀ y < 216, pixelAt n x y =
        scrolledPixel (.preset color) (hinc hcmd hoff s.hs) (vinc vcmd voff s.vs) s.live x y) ∧
      (∀ a, offCanvas b a → readByte n.mem a = readByte b.mem a)

/-- `SCROLLC` (R243, R241, R232, R244): as `SCROLLP`, the vacated bands wrapped from the opposite edge; every byte of
the granted buffer that is no pixel is as it was (R61). Derived: code 3, the sign of down and the copied bands are
decisions D3, D4 and D5 of the spec (notes/assumptions/8.md, 10.md), R61 rests on D14, and R244 is marked as derived. -/
def Obligations.ScrollCShiftsAndWraps : Prop :=
  (∀ r : Record, RecordSelects 0x0918 r → decode r = .ok (.scrollC (low4 (dataByte r 0)) (directionField (dataByte r 1))
    (clampH (dataByte r 1)) (directionField (dataByte r 2)) (clampV (dataByte r 2)))) ∧
  ∀ (color : Color) (hcmd : BitVec 2) (hoff : BitVec 3) (vcmd : BitVec 2) (voff : BitVec 4) (s : State) (b : Buffer),
    ¬ (hinc hcmd hoff s.hs = 0 ∧ vinc vcmd voff s.vs = 0) → s.alloc = .grant b → b.handle ≠ s.live.handle →
    ∃ n, exec (.scrollC color hcmd hoff vcmd voff) s = .next { s with
        live := n, hs := hoff, vs := voff, phase := .idle, pending := none,
        events := s.events ++ [.acquire, .release s.live.handle] } ∧
      n.handle = b.handle ∧ n.pad = b.pad ∧
      (∀ x < 300, ∀ y < 216, pixelAt n x y =
        scrolledPixel .copy (hinc hcmd hoff s.hs) (vinc vcmd voff s.vs) s.live x y) ∧
      (∀ a, offCanvas b a → readByte n.mem a = readByte b.mem a)

/-- The corners of a scroll on both axes (R239): a pixel in both bands takes the horizontal band's value, the flat
colour under `SCROLLP`, under `SCROLLC` the old canvas's pixel of the same row at the opposite edge. Derived: the copied
band at the same row is decision D5 of the spec (notes/assumptions/10.md). -/
def Obligations.CornersTakeTheHorizontalBand : Prop :=
  ∀ (color : Color) (hcmd : BitVec 2) (hoff : BitVec 3) (vcmd : BitVec 2) (voff : BitVec 4) (s t u : State) (x y : Nat),
    x < 300 → y < 216 →
    ((0 < hinc hcmd hoff s.hs ∧ (x : Int) < hinc hcmd hoff s.hs) ∨
      (hinc hcmd hoff s.hs < 0 ∧ 300 + hinc hcmd hoff s.hs ≤ x)) →
    exec (.scrollP color hcmd hoff vcmd voff) s = .next t → exec (.scrollC color hcmd hoff vcmd voff) s = .next u →
    s.alloc ≠ .deny →
    (pixelAt t.live x y).toNat = color.toNat ∧
    pixelAt u.live x y = pixelAt s.live ((x - hinc hcmd hoff s.hs) % 300).toNat y

/-- The rotation law (R245): a `SCROLLC` with a shift on one axis rotates the canvas along it; right by 6 and then left
by 6, with no offset change, restores it. Derived: R245 is marked in the spec as derived. -/
def Obligations.SingleAxisCopyScrollRotates : Prop :=
  (∀ (color : Color) (hcmd : BitVec 2) (hoff : BitVec 3) (vcmd : BitVec 2) (voff : BitVec 4) (s t : State),
    s.alloc ≠ .deny → exec (.scrollC color hcmd hoff vcmd voff) s = .next t →
    (vinc vcmd voff s.vs = 0 → hinc hcmd hoff s.hs ≠ 0 → ∀ x < 300, ∀ y < 216,
      pixelAt t.live x y = pixelAt s.live ((x - hinc hcmd hoff s.hs) % 300).toNat y) ∧
    (hinc hcmd hoff s.hs = 0 → vinc vcmd voff s.vs ≠ 0 → ∀ x < 300, ∀ y < 216,
      pixelAt t.live x y = pixelAt s.live x ((y - vinc vcmd voff s.vs) % 216).toNat)) ∧
  ∀ (color color' : Color) (s t u : State) (b : Buffer),
    s.alloc ≠ .deny →
    exec (.scrollC color 1 s.hs 0 s.vs) s = .next t →
    exec (.scrollC color' 2 t.hs 0 t.vs) { t with alloc := .grant b } = .next u →
    ∀ x < 300, ∀ y < 216, pixelAt u.live x y = pixelAt s.live x y

/-- The alignment law (R247): either scroll with no direction selected moves the content, and the place of every later
tile, by the change of the offsets; so what was painted before stays in place relative to what is painted after.
Derived: R247 is marked in the spec as derived; code 3 is decision D3 (notes/assumptions/8.md). -/
def Obligations.OffsetScrollsKeepTilesAligned : Prop :=
  ∀ (i : Instr) (color : Color) (hcmd : BitVec 2) (hoff : BitVec 3) (vcmd : BitVec 2) (voff : BitVec 4) (s t : State),
    i = .scrollP color hcmd hoff vcmd voff ∨ i = .scrollC color hcmd hoff vcmd voff →
    hcmd = 0 ∨ hcmd = 3 → vcmd = 0 ∨ vcmd = 3 → s.alloc ≠ .deny → exec i s = .next t →
    (∀ x y x' y' : Nat, x < 300 → y < 216 → x' < 300 → y' < 216 →
      (x' : Int) - x = (hoff.toNat : Int) - s.hs.toNat → (y' : Int) - y = (voff.toNat : Int) - s.vs.toNat →
      pixelAt t.live x' y' = pixelAt s.live x y) ∧
    ∀ (rowf : BitVec 5) (colf : BitVec 6),
      ((tileRect rowf colf t).x : Int) - (tileRect rowf colf s).x = (hoff.toNat : Int) - s.hs.toNat ∧
      ((tileRect rowf colf t).y : Int) - (tileRect rowf colf s).y = (voff.toNat : Int) - s.vs.toNat

/-- Every one of the 72 offset pairs is reached from every state by one packet, the scroll `SETOFF` of R103 (R246), from
a host that grants a buffer not held. Derived: R246 is marked in the spec as derived. -/
def Obligations.EveryOffsetPairIsOneScrollAway : Prop :=
  ∀ (s : State) (hoff : BitVec 3) (voff : BitVec 4) (b : Buffer) (rest : List HostAction),
    hoff.toNat ≤ 5 → voff.toNat ≤ 11 → b.handle ≠ s.live.handle →
    s.input = .packet (encode (setOffInstr hoff voff)) (.grant b) :: rest →
    ∃ t, step s = .next t ∧ t.out = some (.ok ⟨t.live, t.pal, t.pcf⟩) ∧ t.hs = hoff ∧ t.vs = voff

/-- The model's choice (decision D20 of the spec, notes/assumptions/6.md): a grant of the buffer the block holds has no move;
either scroll with nonzero net shift is refused by name. -/
def Obligations.GrantOfTheHeldBufferHasNoMove : Prop :=
  ∀ (color : Color) (hcmd : BitVec 2) (hoff : BitVec 3) (vcmd : BitVec 2) (voff : BitVec 4) (s : State) (b : Buffer),
    ¬ (hinc hcmd hoff s.hs = 0 ∧ vinc vcmd voff s.vs = 0) → s.alloc = .grant b → b.handle = s.live.handle →
    exec (.scrollP color hcmd hoff vcmd voff) s = .refused .heldBufferGranted ∧
    exec (.scrollC color hcmd hoff vcmd voff) s = .refused .heldBufferGranted

/-! ### Reset -/

/-- A reset by the host (R320): every pixel `INIT_PIXEL`, the palette `INIT_PALETTE`, the offsets and the flag 0, the
live buffer the one supplied, the controller idle, no request and no output record; the parameters stay. Derived: R320
rests on decisions D21 and D22 of the spec (notes/assumptions/17.md). -/
def Obligations.HostResetWritesEveryElement : Prop :=
  ∀ (s : State) (b0 : Buffer) (rest : List HostAction), s.input = .reset b0 :: rest →
    ∃ b, step s = .next { s with
        input := rest, live := b, pal := s.params.initPalette, hs := 0, vs := 0, pcf := false,
        phase := .idle, pending := none, out := none, events := [] } ∧
      b.handle = b0.handle ∧ b.pad = b0.pad ∧
      (∀ x < 300, ∀ y < 216, (pixelAt b x y).toNat = s.params.initPixel.toNat) ∧
      (∀ a, offCanvas b0 a → readByte b.mem a = readByte b0.mem a)

/-- The reset state (R45 to R49, R321): with the default parameters (the spec's; notes/assumptions/3.md, 4.md) every pixel 0,
every palette entry black, the offsets, the flag 0, the controller idle, nothing put out. The handle and the stride of its
buffer are the model's choice (notes/assumptions/5.md) and are not stated. -/
def Obligations.ResetStateHoldsTheResetValues : Prop :=
  (∀ x < 300, ∀ y < 216, pixelAt State.reset.live x y = 0) ∧
  (∀ i : Fin 16, State.reset.pal[i] = ⟨0, 0, 0⟩) ∧
  State.reset.hs = 0 ∧ State.reset.vs = 0 ∧ State.reset.pcf = false ∧ State.reset.phase = .idle ∧
  State.reset.pending = none ∧ State.reset.out = none ∧ State.reset.events = []

/-- The reset state is what a reset by the host gives: resetting it with its own buffer, whatever pixels that holds, gives it
back. -/
def Obligations.ResetStateIsAHostReset : Prop :=
  ∀ b0 : Buffer, b0.canonical → b0.handle = State.reset.live.handle → b0.pad = State.reset.live.pad →
    step { State.reset with input := [.reset b0] } = .next State.reset

/-! ### Invariants and the whole machine -/

/-- Every step keeps the invariant: the live buffer canonical and every pixel a palette index, the offsets in range, the
controller idle with one buffer (R34, R37, R43, R61, R249). Derived: the canonical form is the model's choice
(notes/assumptions/7.md); R34 is marked in the spec as derived. -/
def Obligations.StepKeepsTheInvariant : Prop :=
  ∀ s t : State, s.Inv → step s = .next t → t.Inv

/-- The reset state has the invariant (R322). Derived: R322 is marked in the spec as derived. -/
def Obligations.ResetStateHasTheInvariant : Prop := State.reset.Inv

/-- If every channel of `INIT_PALETTE` is a multiple of 17, every step keeps every channel of every entry a multiple of
17; the default palette is, and the reset state's (R36). Derived: R36 is marked in the spec as derived; the default
palette is decision D8 (notes/assumptions/3.md). -/
def Obligations.PaletteChannelsStayMultiplesOfSeventeen : Prop :=
  (∀ s t : State, paletteScaled s.params.initPalette → paletteScaled s.pal → step s = .next t →
    paletteScaled t.params.initPalette ∧ paletteScaled t.pal) ∧
  paletteScaled Config.defaultParams.initPalette ∧ paletteScaled State.reset.pal

/-- No result of a step on a record, of the three R131 gives it, depends on a buffer's stride, handle, padding or former
content (R61, R235, R240): two states that show the same picture, given the same record and answers of the same kind from
hosts that keep their duty, step to states that show the same picture, with the same error if any and frames alike
otherwise, and with the same requests up to the handle released. Derived: R61 rests on decision D14 of the spec. -/
def Obligations.ResultsDoNotDependOnTheBuffers : Prop :=
  ∀ (s s' t : State) (r : Record) (al al' : Alloc) (rest rest' : List HostAction),
    SamePicture s s' → s.input = .packet r al :: rest → s'.input = .packet r al' :: rest' →
    sameKind al al' → grantsFresh al' s' → step s = .next t →
    ∃ t', step s' = .next t' ∧ SamePicture t t' ∧
      (∀ e, t.out = some (.error e) ↔ t'.out = some (.error e)) ∧
      (∀ f, t.out = some (.ok f) → ∃ f', t'.out = some (.ok f') ∧ SameFrame f f') ∧
      (∀ f', t'.out = some (.ok f') → ∃ f, t.out = some (.ok f) ∧ SameFrame f f') ∧
      List.Forall₂ HostRequest.sameKind t.events t'.events
end

