-- ==== Sys2Proof/Laws/Decode.lean ====
section
/-! SUPPORT. What the fields of a packet are as numbers (spec/30_encoding.md R92 to R99), and the length of an encoded
packet. -/

namespace Sys2Proof

theorem decode_of_length {r : Record} (h : r.length = Machine.packetSize) : decode r = .ok (decodePacket r) := if_pos h

theorem decode_of_length_ne {r : Record} (h : r.length ≠ Machine.packetSize) :
    decode r = .error (.malformedPacket r.length) := if_neg h

/-- Every encoded packet is 24 bytes long (R90). -/
theorem encode_length (i : Instr) : (encode i).length = Machine.packetSize := by
  cases i <;> rfl

theorem low4_toNat (v : Byte) : (low4 v).toNat = v.toNat &&& 0x0F := by revert v; decide

theorem low6_toNat (v : Byte) : (low6 v).toNat = v.toNat &&& 0x3F := by revert v; decide

theorem tileRowField_toNat (v : Byte) : (tileRowField v).toNat = v.toNat &&& 0x1F := by revert v; decide

theorem directionField_toNat (v : Byte) : (directionField v).toNat = v.toNat >>> 4 &&& 0x3 := by revert v; decide

/-- The horizontal clamp (R99). -/
theorem clampH_toNat (v : Byte) : (clampH v).toNat = min (v.toNat &&& 0x7) 5 := by revert v; decide

/-- The vertical clamp (R99). -/
theorem clampV_toNat (v : Byte) : (clampV v).toNat = min (v.toNat &&& 0xF) 11 := by revert v; decide

/-- `color_k` of two data bytes, all 14 bits (R97). -/
theorem assembleColor_toNat (hi lo : Byte) : (assembleColor hi lo).toNat = hi.toNat <<< 6 ||| lo.toNat &&& 0x3F := by
  have := hi.isLt
  have hl : (low6 lo).toNat < 2 ^ 6 := (low6 lo).isLt
  rw [assembleColor, BitVec.toNat_or, BitVec.toNat_shiftLeft, BitVec.toNat_setWidth, BitVec.toNat_setWidth,
    Nat.mod_eq_of_lt (show hi.toNat < 2 ^ 14 by omega),
    Nat.mod_eq_of_lt (show hi.toNat <<< 6 < 2 ^ 14 by rw [Nat.shiftLeft_eq]; omega),
    Nat.mod_eq_of_lt (show (low6 lo).toNat < 2 ^ 14 by omega), low6_toNat]

/-- The 12-bit entry of two data bytes (R97). -/
theorem colorEntry_toNat (hi lo : Byte) :
    (colorEntry hi lo).toNat = (hi.toNat <<< 6 ||| lo.toNat &&& 0x3F) &&& 0xFFF := by
  rw [colorEntry, BitVec.extractLsb'_toNat, assembleColor_toNat, Nat.shiftRight_zero,
    show (0xFFF : Nat) = 2 ^ 12 - 1 from rfl, Nat.and_two_pow_sub_one_eq_mod]

/-- Only the masked bits of a decode word select a row (R95). -/
theorem opcodeOf_masked (w : BitVec 16) : opcodeOf w = opcodeOf (w &&& 0x3F3F) := by
  have hm : ∀ row ∈ opcodeTable, row.mask = 0x3F3F := by decide
  have hs : ∀ row ∈ opcodeTable, rowSelects row w = rowSelects row (w &&& 0x3F3F) := by
    intro row hr
    rw [rowSelects, rowSelects, hm row hr, BitVec.and_assoc, BitVec.and_self]
  have hf : opcodeTable.find? (rowSelects · w) = opcodeTable.find? (rowSelects · (w &&& 0x3F3F)) := List.find?_congr hs
  rw [opcodeOf, opcodeOf, hf]

/-- A record whose length and masked word are right decodes by the row of that word (R95, R101). -/
theorem decode_of_selects {r : Record} {p : BitVec 16} (hl : r.length = Machine.packetSize)
    (hp : decodeWord r &&& 0x3F3F = p) : decode r = .ok (decodePacket r) ∧ opcodeOf (decodeWord r) = opcodeOf p :=
  ⟨decode_of_length hl, by rw [opcodeOf_masked, hp]⟩

end Sys2Proof
end

