-- ==== Sys2Proof/Laws/Memory.lean ====
section
/-! SUPPORT. The bytes of a buffer: what a merge of two cell lists reads as, that every memory operation keeps the
canonical form, and that two canonical memories with the same bytes are equal. -/

namespace Sys2Proof.Machine

/-- No cell of the list is at the offset. -/
abbrev Misses (m : Memory) (a : Nat) : Prop := ∀ c ∈ m, c.1 ≠ a

@[simp] theorem readByte_nil (a : Nat) : readByte [] a = Config.unlisted := rfl

theorem readByte_cons (c : Host.Cell) (m : Memory) (a : Nat) :
    readByte (c :: m) a = if c.1 = a then c.2 else readByte m a := rfl

theorem readByte_of_misses {m : Memory} {a : Nat} (h : Misses m a) : readByte m a = Config.unlisted := by
  induction m with
  | nil => rfl
  | cons c m ih =>
    rw [readByte_cons, if_neg (h c (by simp))]
    exact ih fun d hd => h d (by simp [hd])

theorem readByte_append (m n : Memory) (a : Nat) :
    (Misses m a → readByte (m ++ n) a = readByte n a) ∧ (Misses n a → readByte (m ++ n) a = readByte m a) := by
  induction m with
  | nil => exact ⟨fun _ => rfl, fun h => by simpa using readByte_of_misses h⟩
  | cons c m ih =>
    simp only [List.cons_append, readByte_cons]
    refine ⟨fun h => ?_, fun h => ?_⟩
    · rw [if_neg (h c (by simp))]
      exact ih.1 fun d hd => h d (by simp [hd])
    · rw [ih.2 h]

theorem readByte_of_mem {m : Memory} (hm : m.Pairwise fun c d => c.1 < d.1) {c : Host.Cell} (hc : c ∈ m) :
    readByte m c.1 = c.2 := by
  induction m with
  | nil => simp at hc
  | cons d m ih =>
    rw [List.pairwise_cons] at hm
    rcases List.mem_cons.1 hc with rfl | hc
    · simp [readByte_cons]
    · rw [readByte_cons, if_neg (Nat.ne_of_lt (hm.1 c hc)), ih hm.2 hc]

/-- What a filter of the cells by their offset reads as. -/
theorem readByte_filter (p : Nat → Bool) (m : Memory) (a : Nat) :
    readByte (m.filter fun c => p c.1) a = if p a then readByte m a else Config.unlisted := by
  induction m with
  | nil => simp
  | cons c m ih =>
    rw [List.filter_cons]
    split
    · rename_i hp
      rw [readByte_cons, readByte_cons, ih]
      by_cases hca : c.1 = a
      · subst hca; simp [hp]
      · simp [hca]
    · rename_i hp
      rw [ih, readByte_cons]
      by_cases hca : c.1 = a
      · subst hca; simp [hp]
      · simp [hca]

/-! ### Merging -/

theorem mem_mergeCells {m cells : Memory} {c : Host.Cell} : c ∈ mergeCells m cells ↔ c ∈ m ∨ c ∈ cells := by
  induction m generalizing cells with
  | nil => simp [mergeCells]
  | cons d m ih =>
    rw [mergeCells, List.mem_append, List.mem_cons, ih, List.mem_cons]
    conv_rhs => rw [← List.takeWhile_append_dropWhile (p := fun e : Host.Cell => decide (e.1 < d.1)) (l := cells),
      List.mem_append]
    tauto

theorem misses_mono {m n : Memory} {a : Nat} (h : Misses n a) (hs : ∀ c ∈ m, c ∈ n) : Misses m a :=
  fun c hc => h c (hs c hc)

/-- A merge reads as the list that has a cell at the offset, if at most one has. -/
theorem readByte_mergeCells (m cells : Memory) (a : Nat) :
    (Misses m a → readByte (mergeCells m cells) a = readByte cells a) ∧
    (Misses cells a → readByte (mergeCells m cells) a = readByte m a) := by
  induction m generalizing cells with
  | nil => exact ⟨fun _ => rfl, fun h => by simpa [mergeCells] using readByte_of_misses h⟩
  | cons d m ih =>
    rw [mergeCells]
    refine ⟨fun h => ?_, fun h => ?_⟩
    · have hm : Misses m a := fun c hc => h c (by simp [hc])
      have hd : d.1 ≠ a := h d (by simp)
      by_cases ht : Misses (cells.takeWhile fun e => decide (e.1 < d.1)) a
      · rw [(readByte_append _ _ a).1 ht, readByte_cons, if_neg hd, (ih _).1 hm]
        conv_rhs => rw [← List.takeWhile_append_dropWhile (p := fun e : Host.Cell => decide (e.1 < d.1)) (l := cells)]
        rw [(readByte_append _ _ a).1 ht]
      · conv_rhs => rw [← List.takeWhile_append_dropWhile (p := fun e : Host.Cell => decide (e.1 < d.1)) (l := cells)]
        generalize (cells.takeWhile fun e => decide (e.1 < d.1)) = t at ht
        induction t with
        | nil => simp [Misses] at ht
        | cons e t iht =>
          simp only [List.cons_append, readByte_cons]
          split
          · rfl
          · rename_i he
            exact iht fun hmiss => ht fun c hc => by
              rcases List.mem_cons.1 hc with rfl | hc
              exacts [he, hmiss c hc]
    · have ht := misses_mono h fun c hc => (List.takeWhile_sublist (l := cells) fun e => decide (e.1 < d.1)).mem hc
      have hdr := misses_mono h fun c hc => (List.dropWhile_sublist (l := cells) fun e => decide (e.1 < d.1)).mem hc
      rw [(readByte_append _ _ a).1 ht, readByte_cons, readByte_cons, (ih _).2 hdr]

theorem lt_of_mem_takeWhile {cells : Memory} {k : Nat} {c : Host.Cell}
    (h : c ∈ cells.takeWhile fun e => decide (e.1 < k)) : c.1 < k := by
  simpa using List.mem_takeWhile_imp h

theorem le_of_mem_dropWhile {cells : Memory} (hs : cells.Pairwise fun c d => c.1 < d.1) {k : Nat} {c : Host.Cell}
    (h : c ∈ cells.dropWhile fun e => decide (e.1 < k)) : k ≤ c.1 := by
  induction cells with
  | nil => simp at h
  | cons d cells ih =>
    rw [List.pairwise_cons] at hs
    rw [List.dropWhile_cons] at h
    split at h
    · exact ih hs.2 h
    · rename_i hk
      have hk : k ≤ d.1 := by simpa using hk
      rcases List.mem_cons.1 h with rfl | h
      · exact hk
      · exact Nat.le_trans hk (Nat.le_of_lt (hs.1 c h))

/-- A merge of rising lists with no common offset is rising. -/
theorem pairwise_mergeCells {m cells : Memory} (hm : m.Pairwise fun c d => c.1 < d.1)
    (hc : cells.Pairwise fun c d => c.1 < d.1) (hd : ∀ c ∈ m, Misses cells c.1) :
    (mergeCells m cells).Pairwise fun c d => c.1 < d.1 := by
  induction m generalizing cells with
  | nil => exact hc
  | cons d m ih =>
    rw [List.pairwise_cons] at hm
    have hdrop := fun c (h : c ∈ cells.dropWhile fun e => decide (e.1 < d.1)) =>
      (List.dropWhile_sublist (l := cells) fun e => decide (e.1 < d.1)).mem h
    have hrest : ∀ c ∈ mergeCells m (cells.dropWhile fun e => decide (e.1 < d.1)), d.1 < c.1 := by
      intro c h
      rcases mem_mergeCells.1 h with h | h
      · exact hm.1 c h
      · exact Nat.lt_of_le_of_ne (le_of_mem_dropWhile hc h) fun he => hd d (by simp) c (hdrop c h) he.symm
    rw [mergeCells, List.pairwise_append, List.pairwise_cons]
    refine ⟨hc.sublist (List.takeWhile_sublist _), ⟨hrest, ?_⟩, ?_⟩
    · exact ih hm.2 (hc.sublist (List.dropWhile_sublist _)) fun c h =>
        misses_mono (hd c (by simp [h])) hdrop
    · intro c h e he
      rcases List.mem_cons.1 he with rfl | he
      · exact lt_of_mem_takeWhile h
      · exact Nat.lt_trans (lt_of_mem_takeWhile h) (hrest e he)

/-- A merge of canonical memories with no common offset is canonical. -/
theorem wf_mergeCells {m cells : Memory} (hm : Memory.wf m) (hc : Memory.wf cells) (hd : ∀ c ∈ m, Misses cells c.1) :
    Memory.wf (mergeCells m cells) :=
  ⟨pairwise_mergeCells hm.1 hc.1 hd, fun c h => (mem_mergeCells.1 h).elim (hm.2 c) (hc.2 c)⟩

/-- A filter of a canonical memory is canonical. -/
theorem wf_filter {m : Memory} (hm : Memory.wf m) (p : Host.Cell → Bool) : Memory.wf (m.filter p) :=
  ⟨hm.1.filter p, fun c h => hm.2 c (List.mem_of_mem_filter h)⟩

/-! ### Equal bytes, equal memories -/

theorem mem_iff_readByte {m : Memory} (hm : Memory.wf m) (a : Nat) (v : Byte) :
    (a, v) ∈ m ↔ readByte m a = v ∧ v ≠ Config.unlisted := by
  refine ⟨fun h => ⟨readByte_of_mem hm.1 h, hm.2 _ h⟩, fun ⟨h, hv⟩ => ?_⟩
  by_cases hmiss : Misses m a
  · exact absurd (h.symm.trans (readByte_of_misses hmiss)) hv
  · simp only [Misses, not_forall] at hmiss
    obtain ⟨c, hc, hca⟩ := hmiss
    have hca : c.1 = a := by simpa using hca
    subst hca
    rw [readByte_of_mem hm.1 hc] at h
    subst h
    exact hc

/-- Canonical memories that read the same everywhere are the same list. -/
theorem eq_of_readByte_eq {m n : Memory} (hm : Memory.wf m) (hn : Memory.wf n) (h : ∀ a, readByte m a = readByte n a) : m = n := by
  have hperm : m.Perm n := by
    refine (List.perm_ext_iff_of_nodup ?_ ?_).2 fun ⟨a, v⟩ => by
      rw [mem_iff_readByte hm, mem_iff_readByte hn, h]
    · exact hm.1.imp fun hcd he => by simp [he] at hcd
    · exact hn.1.imp fun hcd he => by simp [he] at hcd
  refine hperm.eq_of_pairwise ?_ hm.1 hn.1
  intro c d _ _ h1 h2
  exact absurd h1 (Nat.lt_asymm h2)

/-- The memory of the reset state has the canonical form. -/
theorem reset_mem_wf : Memory.wf State.reset.live.mem := ⟨List.Pairwise.nil, fun _ h => absurd h List.not_mem_nil⟩

end Sys2Proof.Machine
end

