-- ==== Sys2Proof/Laws/Rect.lean ====
section
/-! SUPPORT. The rectangle primitives: what every byte and every pixel is after a fill, an update or a copy, and that they
keep a buffer canonical. -/

namespace Sys2Proof.Machine

/-! ### Offsets -/

theorem fullWidth_le_stride (b : Buffer) : fullWidth ≤ b.stride := Nat.le_add_right _ _

theorem stride_pos (b : Buffer) : 0 < b.stride := Nat.lt_of_lt_of_le (by decide) (fullWidth_le_stride b)

theorem pixelOffset_mod {stride x : Nat} (y : Nat) (hx : x < stride) : pixelOffset stride x y % stride = x := by
  rw [pixelOffset, Nat.mul_comm, Nat.mul_add_mod, Nat.mod_eq_of_lt hx]

theorem pixelOffset_div {stride x : Nat} (y : Nat) (hx : x < stride) : pixelOffset stride x y / stride = y := by
  rw [pixelOffset, Nat.mul_comm, Nat.mul_add_div (by omega), Nat.div_eq_of_lt hx, Nat.add_zero]

theorem pixelOffset_of_offset (stride a : Nat) : pixelOffset stride (a % stride) (a / stride) = a := by
  rw [pixelOffset, Nat.mul_comm]; exact Nat.div_add_mod a stride

theorem pixelOffset_lt {stride x y x' y' : Nat} (hx : x < stride) (h : y < y' ∨ y = y' ∧ x < x') :
    pixelOffset stride x y < pixelOffset stride x' y' := by
  unfold pixelOffset
  rcases h with h | ⟨rfl, h⟩
  · have : (y + 1) * stride ≤ y' * stride := Nat.mul_le_mul_right _ h
    rw [Nat.add_mul] at this
    omega
  · omega

theorem lex_of_lt {stride a a' : Nat} (h : a < a') :
    a / stride < a' / stride ∨ a / stride = a' / stride ∧ a % stride < a' % stride := by
  rcases Nat.lt_or_eq_of_le (Nat.div_le_div_right (c := stride) (Nat.le_of_lt h)) with h1 | h1
  · exact .inl h1
  · refine .inr ⟨h1, ?_⟩
    have e := Nat.div_add_mod a stride
    have e' := Nat.div_add_mod a' stride
    rw [h1] at e
    omega

theorem rectHas_iff {t : Rect} {x y : Nat} :
    rectHas t x y = true ↔ (t.x ≤ x ∧ x < t.x + t.w) ∧ t.y ≤ y ∧ y < t.y + t.h := by
  simp [rectHas, and_assoc]

theorem rectFits_iff {t : Rect} : rectFits t = true ↔ t.x + t.w ≤ fullWidth ∧ t.y + t.h ≤ fullHeight := by
  simp [rectFits]

theorem offsetInRect_pixelOffset {stride x : Nat} (t : Rect) (y : Nat) (hx : x < stride) :
    offsetInRect stride t (pixelOffset stride x y) = rectHas t x y := by
  rw [offsetInRect, pixelOffset_mod y hx, pixelOffset_div y hx]

/-- A pixel of a rectangle that fits is a pixel of the canvas. -/
theorem rectHas_wholeCanvas {t : Rect} (ht : rectFits t = true) {x y : Nat} (h : rectHas t x y = true) :
    rectHas wholeCanvas x y = true := by
  rw [rectFits_iff] at ht
  rw [rectHas_iff] at h ⊢
  simp only [wholeCanvas]
  omega

/-! ### The cells of a rectangle -/

theorem mem_rectCells {stride : Nat} {t : Rect} {f : Nat → Nat → Byte} {c : Host.Cell} :
    c ∈ rectCells stride t f ↔ ∃ j < t.h, ∃ i < t.w,
      f i j ≠ Config.unlisted ∧ c = (pixelOffset stride (t.x + i) (t.y + j), f i j) := by
  simp only [rectCells, List.mem_flatMap, List.mem_range, List.mem_filterMap, cellOf]
  refine exists_congr fun j => and_congr_right fun _ => exists_congr fun i => and_congr_right fun _ => ?_
  split
  · simp [*]
  · rename_i hv
    simp [hv, eq_comm]

theorem wf_rectCells {stride : Nat} {t : Rect} (ht : t.x + t.w ≤ stride) (f : Nat → Nat → Byte) :
    Memory.wf (rectCells stride t f) := by
  refine ⟨?_, fun c hc => ?_⟩
  · have row : ∀ j c, (c ∈ (List.range t.w).filterMap fun i => cellOf (pixelOffset stride (t.x + i) (t.y + j)) (f i j)) →
        ∃ i < t.w, c.1 = pixelOffset stride (t.x + i) (t.y + j) := by
      intro j c hc
      obtain ⟨i, hi, hc⟩ := List.mem_filterMap.1 hc
      refine ⟨i, List.mem_range.1 hi, ?_⟩
      unfold cellOf at hc
      split at hc
      · simp at hc
      · rw [← Option.some.inj hc]
    rw [rectCells, List.pairwise_flatMap]
    refine ⟨fun j _ => ?_, ?_⟩
    · rw [List.pairwise_filterMap]
      refine List.pairwise_lt_range.imp_of_mem fun {i i'} hi _ hii' => ?_
      rw [List.mem_range] at hi
      intro c hc c' hc'
      unfold cellOf at hc hc'
      split at hc <;> [simp at hc; skip]
      split at hc' <;> [simp at hc'; skip]
      rw [← Option.some.inj hc, ← Option.some.inj hc']
      exact pixelOffset_lt (by omega) (.inr ⟨rfl, by omega⟩)
    · refine List.pairwise_lt_range.imp fun {j j'} hjj' => ?_
      intro c hc c' hc'
      obtain ⟨i, hi, hc⟩ := row j c hc
      obtain ⟨i', hi', hc'⟩ := row j' c' hc'
      rw [hc, hc']
      exact pixelOffset_lt (by omega) (.inl (by omega))
  · obtain ⟨j, _, i, _, hv, rfl⟩ := mem_rectCells.1 hc
    exact hv

theorem misses_rectCells {stride : Nat} {t : Rect} (ht : t.x + t.w ≤ stride) (f : Nat → Nat → Byte) {a : Nat}
    (ha : offsetInRect stride t a = false) : Misses (rectCells stride t f) a := by
  intro c hc he
  obtain ⟨j, hj, i, hi, _, rfl⟩ := mem_rectCells.1 hc
  subst he
  rw [offsetInRect_pixelOffset _ _ (by omega), ← Bool.not_eq_true, rectHas_iff] at ha
  omega

theorem readByte_rectCells {stride : Nat} {t : Rect} (ht : t.x + t.w ≤ stride) (f : Nat → Nat → Byte) {a : Nat}
    (ha : offsetInRect stride t a = true) :
    readByte (rectCells stride t f) a = f (a % stride - t.x) (a / stride - t.y) := by
  rw [offsetInRect, rectHas_iff] at ha
  by_cases hv : f (a % stride - t.x) (a / stride - t.y) = Config.unlisted
  · rw [hv]
    refine readByte_of_misses fun c hc he => ?_
    obtain ⟨j, hj, i, hi, hne, rfl⟩ := mem_rectCells.1 hc
    subst he
    rw [pixelOffset_mod _ (by omega), pixelOffset_div _ (by omega)] at hv
    exact hne (by simpa using hv)
  · refine ((mem_iff_readByte (wf_rectCells ht f) _ _).1 (mem_rectCells.2
      ⟨a / stride - t.y, by omega, a % stride - t.x, by omega, hv, ?_⟩)).1
    rw [show t.x + (a % stride - t.x) = a % stride by omega, show t.y + (a / stride - t.y) = a / stride by omega,
      pixelOffset_of_offset]

/-! ### Replacing a rectangle -/

@[simp] theorem replaceRect_handle (b : Buffer) (t : Rect) (cells : Memory) : (replaceRect b t cells).handle = b.handle :=
  rfl
@[simp] theorem replaceRect_pad (b : Buffer) (t : Rect) (cells : Memory) : (replaceRect b t cells).pad = b.pad := rfl
@[simp] theorem replaceRect_stride (b : Buffer) (t : Rect) (cells : Memory) : (replaceRect b t cells).stride = b.stride :=
  rfl

/-- A replaced rectangle reads as its new cells inside, as before outside. -/
theorem readByte_replaceRect (b : Buffer) (t : Rect) (cells : Memory)
    (hc : ∀ c ∈ cells, offsetInRect b.stride t c.1 = true) (a : Nat) :
    readByte (replaceRect b t cells).mem a =
      if offsetInRect b.stride t a then readByte cells a else readByte b.mem a := by
  have hm := readByte_mergeCells (b.mem.filter fun c => !offsetInRect b.stride t c.1) cells a
  split
  · rename_i ha
    refine hm.1 fun c hc he => ?_
    have := (List.mem_filter.1 hc).2
    simp [he, ha] at this
  · rename_i ha
    rw [replaceRect, hm.2 fun c h he => ha (he ▸ hc c h), readByte_filter fun a => !offsetInRect b.stride t a]
    simp [ha]

theorem wf_replaceRect {b : Buffer} {t : Rect} {cells : Memory} (hb : Memory.wf b.mem) (hw : Memory.wf cells)
    (hc : ∀ c ∈ cells, offsetInRect b.stride t c.1 = true) : Memory.wf (replaceRect b t cells).mem := by
  refine wf_mergeCells (wf_filter hb _) hw fun c h d hd he => ?_
  have := (List.mem_filter.1 h).2
  rw [← he, hc d hd] at this
  simp at this

theorem mem_replaceRect {b : Buffer} {t : Rect} {cells : Memory} {c : Host.Cell} (h : c ∈ (replaceRect b t cells).mem) :
    c ∈ b.mem ∨ c ∈ cells :=
  (mem_mergeCells.1 h).imp_left fun h => (List.mem_filter.1 h).1

/-! ### Updating a rectangle (R62, R70) -/

/-- An update of a rectangle inside the canvas succeeds, and no other does. -/
theorem updateRect_eq_none {b : Buffer} {t : Rect} {f : Nat → Nat → Byte → Byte} :
    updateRect b t f = none ↔ rectFits t = false := by
  rw [updateRect]; split <;> simp_all

/-- Everything an update of a rectangle does: handle and padding stay; a byte inside becomes `f` of its place in the
rectangle and its value before; a byte outside stays. -/
theorem updateRect_spec {b b' : Buffer} {t : Rect} {f : Nat → Nat → Byte → Byte} (h : updateRect b t f = some b') :
    b'.handle = b.handle ∧ b'.pad = b.pad ∧ ∀ a, readByte b'.mem a =
      if offsetInRect b.stride t a then f (a % b.stride - t.x) (a / b.stride - t.y) (readByte b.mem a)
      else readByte b.mem a := by
  rw [updateRect] at h
  split at h <;> [skip; simp at h]
  rename_i ht
  have hw := Nat.le_trans (rectFits_iff.1 ht).1 (fullWidth_le_stride b)
  obtain rfl := (Option.some.inj h).symm
  refine ⟨rfl, rfl, fun a => ?_⟩
  rw [readByte_replaceRect]
  · split
    · rename_i ha
      have ha' := ha
      rw [offsetInRect, rectHas_iff] at ha'
      rw [readByte_rectCells hw _ ha, readByte_filter fun a => offsetInRect b.stride t a,
        show t.x + (a % b.stride - t.x) = a % b.stride by omega,
        show t.y + (a / b.stride - t.y) = a / b.stride by omega, pixelOffset_of_offset, if_pos ha]
    · rfl
  · intro c hc
    by_contra hn
    exact misses_rectCells hw _ (by simpa using hn) c hc rfl

/-- The pixels after an update of a rectangle. -/
theorem pixelAt_updateRect {b b' : Buffer} {t : Rect} {f : Nat → Nat → Byte → Byte} (h : updateRect b t f = some b')
    {x : Nat} (hx : x < fullWidth) (y : Nat) :
    pixelAt b' x y = if rectHas t x y then f (x - t.x) (y - t.y) (pixelAt b x y) else pixelAt b x y := by
  obtain ⟨-, hp, hr⟩ := updateRect_spec h
  have hx := Nat.lt_of_lt_of_le hx (fullWidth_le_stride b)
  have hs : b'.stride = b.stride := by rw [Buffer.stride, hp, Buffer.stride]
  rw [pixelAt, hs, hr, offsetInRect_pixelOffset t y hx, pixelOffset_mod y hx, pixelOffset_div y hx, pixelAt]

theorem offsetInRect_wholeCanvas {stride : Nat} {t : Rect} (ht : rectFits t = true) {a : Nat}
    (h : offsetInRect stride t a = true) : offsetInRect stride wholeCanvas a = true := rectHas_wholeCanvas ht h

/-- A byte that is no pixel lies in no rectangle of the canvas. -/
theorem offsetInRect_of_offCanvas {b : Buffer} {t : Rect} (ht : rectFits t = true) {a : Nat} (h : offCanvas b a) :
    offsetInRect b.stride t a = false := by
  by_contra hn
  rw [offCanvas, offsetInRect_wholeCanvas ht (by simpa using hn)] at h
  simp at h

/-- Which bytes are no pixels depends on the padding only. -/
theorem offCanvas_congr {b b' : Buffer} (h : b.pad = b'.pad) (a : Nat) : offCanvas b a ↔ offCanvas b' a := by
  rw [offCanvas, offCanvas, Buffer.stride, Buffer.stride, h]

/-- An update keeps the canonical form. -/
theorem canonical_updateRect {b b' : Buffer} {t : Rect} {f : Nat → Nat → Byte → Byte} (h : updateRect b t f = some b')
    (hb : b.canonical) : b'.canonical := by
  rw [updateRect] at h
  split at h <;> [skip; simp at h]
  rename_i ht
  have hw := Nat.le_trans (rectFits_iff.1 ht).1 (fullWidth_le_stride b)
  obtain rfl := (Option.some.inj h).symm
  have hin : ∀ g : Nat → Nat → Byte, ∀ c ∈ rectCells b.stride t g, offsetInRect b.stride t c.1 = true := by
    intro g c hc
    by_contra hn
    exact misses_rectCells hw _ (by simpa using hn) c hc rfl
  refine ⟨wf_replaceRect hb.1 (wf_rectCells hw _) (hin _), fun c hc => ?_⟩
  exact (mem_replaceRect hc).elim (hb.2 c) fun hc => offsetInRect_wholeCanvas ht (hin _ c hc)

/-- In a rising memory, every listed byte is below 16 exactly if every byte read is. -/
theorem indexed_iff {b : Buffer} (hb : Memory.wf b.mem) : b.indexed ↔ ∀ a, (readByte b.mem a).toNat < 16 := by
  refine ⟨fun h a => ?_, fun h c hc => readByte_of_mem hb.1 hc ▸ h c.1⟩
  by_cases hm : Misses b.mem a
  · rw [readByte_of_misses hm]; decide
  · simp only [Misses, not_forall] at hm
    obtain ⟨c, hc, hca⟩ := hm
    have hca : c.1 = a := by simpa using hca
    rw [← hca, readByte_of_mem hb.1 hc]
    exact h c hc

/-- An update whose values are palette indices keeps every pixel a palette index. -/
theorem indexed_updateRect {b b' : Buffer} {t : Rect} {f : Nat → Nat → Byte → Byte} (h : updateRect b t f = some b')
    (hb : b.canonical) (hi : b.indexed) (hf : ∀ i j p, p.toNat < 16 → (f i j p).toNat < 16) : b'.indexed := by
  have hr := (indexed_iff hb.1).1 hi
  refine (indexed_iff (canonical_updateRect h hb).1).2 fun a => ?_
  rw [(updateRect_spec h).2.2 a]
  split
  · exact hf _ _ _ (hr a)
  · exact hr a

theorem pixelByte_lt (c : Color) : (pixelByte c).toNat < 16 := by
  rw [pixelByte, BitVec.toNat_setWidth]
  exact Nat.lt_of_le_of_lt (Nat.mod_le _ _) c.isLt

/-! ### Filling a rectangle (R70) -/

theorem rectFill_eq_none {b : Buffer} {t : Rect} {c : Color} : rectFill b t c = none ↔ rectFits t = false :=
  updateRect_eq_none

/-- The pixels after a fill. -/
theorem pixelAt_rectFill {b b' : Buffer} {t : Rect} {c : Color} (h : rectFill b t c = some b') {x : Nat}
    (hx : x < fullWidth) (y : Nat) : pixelAt b' x y = if rectHas t x y then pixelByte c else pixelAt b x y :=
  pixelAt_updateRect h hx y

/-! ### Copying a rectangle (R71) -/

theorem rectCopy_eq_none {n o : Buffer} {dx dy : Nat} {src : Rect} :
    rectCopy n o dx dy src = none ↔ (rectFits ⟨dx, dy, src.w, src.h⟩ && rectFits src) = false := by
  rw [rectCopy]; split <;> simp_all

theorem movedCell_eq_some {ns os dx dy : Nat} {src : Rect} {c d : Host.Cell} :
    movedCell ns os dx dy src c = some d ↔ offsetInRect os src c.1 = true ∧
      (pixelOffset ns (c.1 % os - src.x + dx) (c.1 / os - src.y + dy), c.2) = d := by
  rw [movedCell]; split <;> simp_all

/-- The moved cells read as the old canvas at the source pixel. -/
theorem readByte_movedCells {ns os dx dy : Nat} {src : Rect} (hd : dx + src.w ≤ ns) (hs : src.x + src.w ≤ os)
    (m : Memory) {a : Nat} (ha : offsetInRect ns ⟨dx, dy, src.w, src.h⟩ a = true) :
    readByte (m.filterMap (movedCell ns os dx dy src)) a =
      readByte m (pixelOffset os (a % ns - dx + src.x) (a / ns - dy + src.y)) := by
  rw [offsetInRect, rectHas_iff] at ha
  simp only at ha
  induction m with
  | nil => rfl
  | cons c m ih =>
    rw [List.filterMap_cons]
    split
    · rename_i hn
      rw [readByte_cons, if_neg, ih]
      intro he
      have : ¬ offsetInRect os src c.1 = true := by
        intro hin
        rw [movedCell, if_pos hin] at hn
        simp at hn
      rw [he, offsetInRect_pixelOffset _ _ (by omega), rectHas_iff] at this
      omega
    · rename_i d hsome
      obtain ⟨hin, rfl⟩ := movedCell_eq_some.1 hsome
      rw [offsetInRect, rectHas_iff] at hin
      have key : pixelOffset ns (c.1 % os - src.x + dx) (c.1 / os - src.y + dy) = a ↔
          c.1 = pixelOffset os (a % ns - dx + src.x) (a / ns - dy + src.y) := by
        constructor
        · rintro rfl
          rw [pixelOffset_mod _ (by omega), pixelOffset_div _ (by omega),
            show c.1 % os - src.x + dx - dx + src.x = c.1 % os by omega,
            show c.1 / os - src.y + dy - dy + src.y = c.1 / os by omega, pixelOffset_of_offset]
        · intro he
          rw [he, pixelOffset_mod _ (by omega), pixelOffset_div _ (by omega),
            show a % ns - dx + src.x - src.x + dx = a % ns by omega,
            show a / ns - dy + src.y - src.y + dy = a / ns by omega, pixelOffset_of_offset]
      rw [readByte_cons, readByte_cons, ih]
      by_cases hk : c.1 = pixelOffset os (a % ns - dx + src.x) (a / ns - dy + src.y)
      · rw [if_pos hk, if_pos (key.2 hk)]
      · rw [if_neg hk, if_neg fun h => hk (key.1 h)]

theorem movedCells_inRect {ns os dx dy : Nat} {src : Rect} (hd : dx + src.w ≤ ns) {m : Memory} {c : Host.Cell}
    (hc : c ∈ m.filterMap (movedCell ns os dx dy src)) : offsetInRect ns ⟨dx, dy, src.w, src.h⟩ c.1 = true := by
  obtain ⟨e, -, he⟩ := List.mem_filterMap.1 hc
  obtain ⟨hin, rfl⟩ := movedCell_eq_some.1 he
  rw [offsetInRect, rectHas_iff] at hin
  rw [offsetInRect_pixelOffset _ _ (by omega), rectHas_iff]
  simp only
  omega

theorem wf_movedCells {ns os dx dy : Nat} {src : Rect} (hd : dx + src.w ≤ ns) {m : Memory} (hm : Memory.wf m) :
    Memory.wf (m.filterMap (movedCell ns os dx dy src)) := by
  refine ⟨?_, fun c hc => ?_⟩
  · rw [List.pairwise_filterMap]
    refine hm.1.imp fun {c d} hcd e he e' he' => ?_
    obtain ⟨hin, rfl⟩ := movedCell_eq_some.1 he
    obtain ⟨hin', rfl⟩ := movedCell_eq_some.1 he'
    rw [offsetInRect, rectHas_iff] at hin hin'
    have := lex_of_lt (stride := os) hcd
    exact pixelOffset_lt (by omega) (by omega)
  · obtain ⟨e, he, hc⟩ := List.mem_filterMap.1 hc
    obtain ⟨-, rfl⟩ := movedCell_eq_some.1 hc
    exact hm.2 e he

/-- Everything a copy of a rectangle does: handle and padding of the new canvas stay; a byte inside the destination reads
as the old canvas at the source; a byte outside stays. -/
theorem rectCopy_spec {n o n' : Buffer} {dx dy : Nat} {src : Rect} (h : rectCopy n o dx dy src = some n') :
    n'.handle = n.handle ∧ n'.pad = n.pad ∧ ∀ a, readByte n'.mem a =
      if offsetInRect n.stride ⟨dx, dy, src.w, src.h⟩ a then
        readByte o.mem (pixelOffset o.stride (a % n.stride - dx + src.x) (a / n.stride - dy + src.y))
      else readByte n.mem a := by
  rw [rectCopy] at h
  split at h <;> [skip; simp at h]
  rename_i ht
  simp only [Bool.and_eq_true, rectFits_iff] at ht
  have hn := fullWidth_le_stride n
  have ho := fullWidth_le_stride o
  obtain rfl := (Option.some.inj h).symm
  refine ⟨rfl, rfl, fun a => ?_⟩
  rw [readByte_replaceRect _ _ _ fun c hc => movedCells_inRect (by omega) hc]
  split
  · exact readByte_movedCells (by omega) (by omega) _ ‹_›
  · rfl

/-- The pixels after a copy: `N[dy+j][dx+i] <- O[sy+j][sx+i]` (R71). -/
theorem pixelAt_rectCopy {n o n' : Buffer} {dx dy : Nat} {src : Rect} (h : rectCopy n o dx dy src = some n') {x : Nat}
    (hx : x < fullWidth) (y : Nat) :
    pixelAt n' x y = if rectHas ⟨dx, dy, src.w, src.h⟩ x y then pixelAt o (x - dx + src.x) (y - dy + src.y)
      else pixelAt n x y := by
  obtain ⟨-, hp, hr⟩ := rectCopy_spec h
  have hx := Nat.lt_of_lt_of_le hx (fullWidth_le_stride n)
  have hs : n'.stride = n.stride := by rw [Buffer.stride, hp, Buffer.stride]
  rw [pixelAt, hs, hr, offsetInRect_pixelOffset _ y hx, pixelOffset_mod y hx, pixelOffset_div y hx, pixelAt, pixelAt]

/-- A copy keeps the canonical form. -/
theorem canonical_rectCopy {n o n' : Buffer} {dx dy : Nat} {src : Rect} (h : rectCopy n o dx dy src = some n')
    (hn : n.canonical) (ho : o.canonical) : n'.canonical := by
  rw [rectCopy] at h
  split at h <;> [skip; simp at h]
  rename_i ht
  have hfit := (Bool.and_eq_true _ _ ▸ ht).1
  have hw : dx + src.w ≤ n.stride := Nat.le_trans (rectFits_iff.1 hfit).1 (fullWidth_le_stride n)
  obtain rfl := (Option.some.inj h).symm
  refine ⟨wf_replaceRect hn.1 (wf_movedCells hw ho.1) fun c hc => movedCells_inRect hw hc, fun c hc => ?_⟩
  exact (mem_replaceRect hc).elim (hn.2 c) fun hc => offsetInRect_wholeCanvas hfit (movedCells_inRect hw hc)

/-! ### Equal pixels, equal buffers -/

/-- Canonical buffers with the same handle, padding and pixels are the same buffer. -/
theorem buffer_ext_of_pixels {b b' : Buffer} (hb : b.canonical) (hb' : b'.canonical) (hh : b.handle = b'.handle)
    (hp : b.pad = b'.pad) (h : ∀ x < fullWidth, ∀ y < fullHeight, pixelAt b x y = pixelAt b' x y) : b = b' := by
  have hs : b'.stride = b.stride := by rw [Buffer.stride, ← hp, Buffer.stride]
  have hmem : b.mem = b'.mem := by
    refine eq_of_readByte_eq hb.1 hb'.1 fun a => ?_
    by_cases ha : offsetInRect b.stride wholeCanvas a = true
    · have ha' := ha
      rw [offsetInRect, rectHas_iff] at ha'
      simp only [wholeCanvas, Nat.zero_add] at ha'
      have := h _ ha'.1.2 _ ha'.2.2
      rwa [pixelAt, pixelAt, hs, pixelOffset_of_offset] at this
    · have hm : Misses b.mem a := by rintro c hc rfl; exact ha (hb.2 c hc)
      have hm' : Misses b'.mem a := by rintro c hc rfl; exact ha (hs ▸ hb'.2 c hc)
      rw [readByte_of_misses hm, readByte_of_misses hm']
  cases b; cases b'
  simp_all

end Sys2Proof.Machine
end

