-- ==== Sys2Proof/Laws/State.lean ====
section
/-! SUPPORT. One lemma per field per update of the state, so that no proof unfolds a record update; then one lemma per
shared operation that says once everything it can do. -/

namespace Sys2Proof.Machine

@[simp] theorem setLive_live (b : Buffer) (s : State) : (setLive b s).live = b := rfl
@[simp] theorem setLive_pal (b : Buffer) (s : State) : (setLive b s).pal = s.pal := rfl
@[simp] theorem setLive_hs (b : Buffer) (s : State) : (setLive b s).hs = s.hs := rfl
@[simp] theorem setLive_vs (b : Buffer) (s : State) : (setLive b s).vs = s.vs := rfl
@[simp] theorem setLive_pcf (b : Buffer) (s : State) : (setLive b s).pcf = s.pcf := rfl
@[simp] theorem setLive_phase (b : Buffer) (s : State) : (setLive b s).phase = s.phase := rfl
@[simp] theorem setLive_pending (b : Buffer) (s : State) : (setLive b s).pending = s.pending := rfl
@[simp] theorem setLive_params (b : Buffer) (s : State) : (setLive b s).params = s.params := rfl
@[simp] theorem setLive_input (b : Buffer) (s : State) : (setLive b s).input = s.input := rfl
@[simp] theorem setLive_alloc (b : Buffer) (s : State) : (setLive b s).alloc = s.alloc := rfl
@[simp] theorem setLive_out (b : Buffer) (s : State) : (setLive b s).out = s.out := rfl
@[simp] theorem setLive_events (b : Buffer) (s : State) : (setLive b s).events = s.events := rfl

@[simp] theorem setPal_live (p : Palette) (s : State) : (setPal p s).live = s.live := rfl
@[simp] theorem setPal_pal (p : Palette) (s : State) : (setPal p s).pal = p := rfl
@[simp] theorem setPal_hs (p : Palette) (s : State) : (setPal p s).hs = s.hs := rfl
@[simp] theorem setPal_vs (p : Palette) (s : State) : (setPal p s).vs = s.vs := rfl
@[simp] theorem setPal_pcf (p : Palette) (s : State) : (setPal p s).pcf = s.pcf := rfl
@[simp] theorem setPal_phase (p : Palette) (s : State) : (setPal p s).phase = s.phase := rfl
@[simp] theorem setPal_pending (p : Palette) (s : State) : (setPal p s).pending = s.pending := rfl
@[simp] theorem setPal_params (p : Palette) (s : State) : (setPal p s).params = s.params := rfl
@[simp] theorem setPal_input (p : Palette) (s : State) : (setPal p s).input = s.input := rfl
@[simp] theorem setPal_alloc (p : Palette) (s : State) : (setPal p s).alloc = s.alloc := rfl
@[simp] theorem setPal_out (p : Palette) (s : State) : (setPal p s).out = s.out := rfl
@[simp] theorem setPal_events (p : Palette) (s : State) : (setPal p s).events = s.events := rfl

@[simp] theorem setOffsets_live (h : BitVec 3) (v : BitVec 4) (s : State) : (setOffsets h v s).live = s.live := rfl
@[simp] theorem setOffsets_pal (h : BitVec 3) (v : BitVec 4) (s : State) : (setOffsets h v s).pal = s.pal := rfl
@[simp] theorem setOffsets_hs (h : BitVec 3) (v : BitVec 4) (s : State) : (setOffsets h v s).hs = h := rfl
@[simp] theorem setOffsets_vs (h : BitVec 3) (v : BitVec 4) (s : State) : (setOffsets h v s).vs = v := rfl
@[simp] theorem setOffsets_pcf (h : BitVec 3) (v : BitVec 4) (s : State) : (setOffsets h v s).pcf = s.pcf := rfl
@[simp] theorem setOffsets_phase (h : BitVec 3) (v : BitVec 4) (s : State) : (setOffsets h v s).phase = s.phase := rfl
@[simp] theorem setOffsets_pending (h : BitVec 3) (v : BitVec 4) (s : State) : (setOffsets h v s).pending = s.pending := rfl
@[simp] theorem setOffsets_params (h : BitVec 3) (v : BitVec 4) (s : State) : (setOffsets h v s).params = s.params := rfl
@[simp] theorem setOffsets_input (h : BitVec 3) (v : BitVec 4) (s : State) : (setOffsets h v s).input = s.input := rfl
@[simp] theorem setOffsets_alloc (h : BitVec 3) (v : BitVec 4) (s : State) : (setOffsets h v s).alloc = s.alloc := rfl
@[simp] theorem setOffsets_out (h : BitVec 3) (v : BitVec 4) (s : State) : (setOffsets h v s).out = s.out := rfl
@[simp] theorem setOffsets_events (h : BitVec 3) (v : BitVec 4) (s : State) : (setOffsets h v s).events = s.events := rfl

@[simp] theorem setPcf_live (s : State) : (setPcf s).live = s.live := rfl
@[simp] theorem setPcf_pal (s : State) : (setPcf s).pal = s.pal := rfl
@[simp] theorem setPcf_hs (s : State) : (setPcf s).hs = s.hs := rfl
@[simp] theorem setPcf_vs (s : State) : (setPcf s).vs = s.vs := rfl
@[simp] theorem setPcf_pcf (s : State) : (setPcf s).pcf = true := rfl
@[simp] theorem setPcf_phase (s : State) : (setPcf s).phase = s.phase := rfl
@[simp] theorem setPcf_pending (s : State) : (setPcf s).pending = s.pending := rfl
@[simp] theorem setPcf_params (s : State) : (setPcf s).params = s.params := rfl
@[simp] theorem setPcf_input (s : State) : (setPcf s).input = s.input := rfl
@[simp] theorem setPcf_alloc (s : State) : (setPcf s).alloc = s.alloc := rfl
@[simp] theorem setPcf_out (s : State) : (setPcf s).out = s.out := rfl
@[simp] theorem setPcf_events (s : State) : (setPcf s).events = s.events := rfl

@[simp] theorem raise_live (e : ErrorKind) (s : State) : (raise e s).live = s.live := rfl
@[simp] theorem raise_pal (e : ErrorKind) (s : State) : (raise e s).pal = s.pal := rfl
@[simp] theorem raise_hs (e : ErrorKind) (s : State) : (raise e s).hs = s.hs := rfl
@[simp] theorem raise_vs (e : ErrorKind) (s : State) : (raise e s).vs = s.vs := rfl
@[simp] theorem raise_pcf (e : ErrorKind) (s : State) : (raise e s).pcf = s.pcf := rfl
@[simp] theorem raise_phase (e : ErrorKind) (s : State) : (raise e s).phase = .idle := rfl
@[simp] theorem raise_pending (e : ErrorKind) (s : State) : (raise e s).pending = none := rfl
@[simp] theorem raise_params (e : ErrorKind) (s : State) : (raise e s).params = s.params := rfl
@[simp] theorem raise_input (e : ErrorKind) (s : State) : (raise e s).input = s.input := rfl
@[simp] theorem raise_alloc (e : ErrorKind) (s : State) : (raise e s).alloc = s.alloc := rfl
@[simp] theorem raise_out (e : ErrorKind) (s : State) : (raise e s).out = some (.error e) := rfl
@[simp] theorem raise_events (e : ErrorKind) (s : State) : (raise e s).events = s.events := rfl

@[simp] theorem requestBuffer_live (s : State) : (requestBuffer s).live = s.live := rfl
@[simp] theorem requestBuffer_pal (s : State) : (requestBuffer s).pal = s.pal := rfl
@[simp] theorem requestBuffer_hs (s : State) : (requestBuffer s).hs = s.hs := rfl
@[simp] theorem requestBuffer_vs (s : State) : (requestBuffer s).vs = s.vs := rfl
@[simp] theorem requestBuffer_pcf (s : State) : (requestBuffer s).pcf = s.pcf := rfl
@[simp] theorem requestBuffer_phase (s : State) : (requestBuffer s).phase = .acquire := rfl
@[simp] theorem requestBuffer_pending (s : State) : (requestBuffer s).pending = s.pending := rfl
@[simp] theorem requestBuffer_params (s : State) : (requestBuffer s).params = s.params := rfl
@[simp] theorem requestBuffer_input (s : State) : (requestBuffer s).input = s.input := rfl
@[simp] theorem requestBuffer_alloc (s : State) : (requestBuffer s).alloc = s.alloc := rfl
@[simp] theorem requestBuffer_out (s : State) : (requestBuffer s).out = s.out := rfl
@[simp] theorem requestBuffer_events (s : State) : (requestBuffer s).events = s.events ++ [.acquire] := rfl

@[simp] theorem beginBuild_live (b : Buffer) (s : State) : (beginBuild b s).live = s.live := rfl
@[simp] theorem beginBuild_pal (b : Buffer) (s : State) : (beginBuild b s).pal = s.pal := rfl
@[simp] theorem beginBuild_hs (b : Buffer) (s : State) : (beginBuild b s).hs = s.hs := rfl
@[simp] theorem beginBuild_vs (b : Buffer) (s : State) : (beginBuild b s).vs = s.vs := rfl
@[simp] theorem beginBuild_pcf (b : Buffer) (s : State) : (beginBuild b s).pcf = s.pcf := rfl
@[simp] theorem beginBuild_phase (b : Buffer) (s : State) : (beginBuild b s).phase = .build := rfl
@[simp] theorem beginBuild_pending (b : Buffer) (s : State) : (beginBuild b s).pending = some b := rfl
@[simp] theorem beginBuild_params (b : Buffer) (s : State) : (beginBuild b s).params = s.params := rfl
@[simp] theorem beginBuild_input (b : Buffer) (s : State) : (beginBuild b s).input = s.input := rfl
@[simp] theorem beginBuild_alloc (b : Buffer) (s : State) : (beginBuild b s).alloc = s.alloc := rfl
@[simp] theorem beginBuild_out (b : Buffer) (s : State) : (beginBuild b s).out = s.out := rfl
@[simp] theorem beginBuild_events (b : Buffer) (s : State) : (beginBuild b s).events = s.events := rfl

@[simp] theorem endBuild_live (n : Buffer) (s : State) : (endBuild n s).live = s.live := rfl
@[simp] theorem endBuild_pal (n : Buffer) (s : State) : (endBuild n s).pal = s.pal := rfl
@[simp] theorem endBuild_hs (n : Buffer) (s : State) : (endBuild n s).hs = s.hs := rfl
@[simp] theorem endBuild_vs (n : Buffer) (s : State) : (endBuild n s).vs = s.vs := rfl
@[simp] theorem endBuild_pcf (n : Buffer) (s : State) : (endBuild n s).pcf = s.pcf := rfl
@[simp] theorem endBuild_phase (n : Buffer) (s : State) : (endBuild n s).phase = .swap := rfl
@[simp] theorem endBuild_pending (n : Buffer) (s : State) : (endBuild n s).pending = some n := rfl
@[simp] theorem endBuild_params (n : Buffer) (s : State) : (endBuild n s).params = s.params := rfl
@[simp] theorem endBuild_input (n : Buffer) (s : State) : (endBuild n s).input = s.input := rfl
@[simp] theorem endBuild_alloc (n : Buffer) (s : State) : (endBuild n s).alloc = s.alloc := rfl
@[simp] theorem endBuild_out (n : Buffer) (s : State) : (endBuild n s).out = s.out := rfl
@[simp] theorem endBuild_events (n : Buffer) (s : State) : (endBuild n s).events = s.events := rfl

@[simp] theorem beginStep_live (al : Alloc) (rest : List HostAction) (s : State) : (beginStep al rest s).live = s.live := rfl
@[simp] theorem beginStep_pal (al : Alloc) (rest : List HostAction) (s : State) : (beginStep al rest s).pal = s.pal := rfl
@[simp] theorem beginStep_hs (al : Alloc) (rest : List HostAction) (s : State) : (beginStep al rest s).hs = s.hs := rfl
@[simp] theorem beginStep_vs (al : Alloc) (rest : List HostAction) (s : State) : (beginStep al rest s).vs = s.vs := rfl
@[simp] theorem beginStep_pcf (al : Alloc) (rest : List HostAction) (s : State) : (beginStep al rest s).pcf = s.pcf := rfl
@[simp] theorem beginStep_phase (al : Alloc) (rest : List HostAction) (s : State) : (beginStep al rest s).phase = s.phase := rfl
@[simp] theorem beginStep_pending (al : Alloc) (rest : List HostAction) (s : State) : (beginStep al rest s).pending = s.pending := rfl
@[simp] theorem beginStep_params (al : Alloc) (rest : List HostAction) (s : State) : (beginStep al rest s).params = s.params := rfl
@[simp] theorem beginStep_input (al : Alloc) (rest : List HostAction) (s : State) : (beginStep al rest s).input = rest := rfl
@[simp] theorem beginStep_alloc (al : Alloc) (rest : List HostAction) (s : State) : (beginStep al rest s).alloc = al := rfl
@[simp] theorem beginStep_out (al : Alloc) (rest : List HostAction) (s : State) : (beginStep al rest s).out = none := rfl
@[simp] theorem beginStep_events (al : Alloc) (rest : List HostAction) (s : State) : (beginStep al rest s).events = [] := rfl

@[simp] theorem emit_live (s : State) : (emit s).live = s.live := rfl
@[simp] theorem emit_pal (s : State) : (emit s).pal = s.pal := rfl
@[simp] theorem emit_hs (s : State) : (emit s).hs = s.hs := rfl
@[simp] theorem emit_vs (s : State) : (emit s).vs = s.vs := rfl
@[simp] theorem emit_pcf (s : State) : (emit s).pcf = s.pcf := rfl
@[simp] theorem emit_phase (s : State) : (emit s).phase = s.phase := rfl
@[simp] theorem emit_pending (s : State) : (emit s).pending = s.pending := rfl
@[simp] theorem emit_params (s : State) : (emit s).params = s.params := rfl
@[simp] theorem emit_input (s : State) : (emit s).input = s.input := rfl
@[simp] theorem emit_alloc (s : State) : (emit s).alloc = s.alloc := rfl
@[simp] theorem emit_out (s : State) : (emit s).out = some (.ok (frameOf s)) := rfl
@[simp] theorem emit_events (s : State) : (emit s).events = s.events := rfl

@[simp] theorem offerRecord_live (r : Record) (s : State) : (offerRecord r s).live = s.live := rfl
@[simp] theorem offerRecord_pal (r : Record) (s : State) : (offerRecord r s).pal = s.pal := rfl
@[simp] theorem offerRecord_hs (r : Record) (s : State) : (offerRecord r s).hs = s.hs := rfl
@[simp] theorem offerRecord_vs (r : Record) (s : State) : (offerRecord r s).vs = s.vs := rfl
@[simp] theorem offerRecord_pcf (r : Record) (s : State) : (offerRecord r s).pcf = s.pcf := rfl
@[simp] theorem offerRecord_phase (r : Record) (s : State) : (offerRecord r s).phase = s.phase := rfl
@[simp] theorem offerRecord_pending (r : Record) (s : State) : (offerRecord r s).pending = s.pending := rfl
@[simp] theorem offerRecord_params (r : Record) (s : State) : (offerRecord r s).params = s.params := rfl
@[simp] theorem offerRecord_input (r : Record) (s : State) : (offerRecord r s).input = .packet r (.grant (freshBuffer s)) :: s.input := rfl
@[simp] theorem offerRecord_alloc (r : Record) (s : State) : (offerRecord r s).alloc = s.alloc := rfl
@[simp] theorem offerRecord_out (r : Record) (s : State) : (offerRecord r s).out = s.out := rfl
@[simp] theorem offerRecord_events (r : Record) (s : State) : (offerRecord r s).events = s.events := rfl

@[simp] theorem policyClear_live (s : State) : (policyClear s).live = s.live := by
  unfold policyClear; split <;> rfl
@[simp] theorem policyClear_pal (s : State) : (policyClear s).pal = s.pal := by
  unfold policyClear; split <;> rfl
@[simp] theorem policyClear_hs (s : State) : (policyClear s).hs = s.hs := by
  unfold policyClear; split <;> rfl
@[simp] theorem policyClear_vs (s : State) : (policyClear s).vs = s.vs := by
  unfold policyClear; split <;> rfl
theorem policyClear_pcf (s : State) :
    (policyClear s).pcf = if s.params.pcfPolicy = .perPacket then false else s.pcf := by
  unfold policyClear; split <;> simp [*]
@[simp] theorem policyClear_phase (s : State) : (policyClear s).phase = s.phase := by
  unfold policyClear; split <;> rfl
@[simp] theorem policyClear_pending (s : State) : (policyClear s).pending = s.pending := by
  unfold policyClear; split <;> rfl
@[simp] theorem policyClear_params (s : State) : (policyClear s).params = s.params := by
  unfold policyClear; split <;> rfl
@[simp] theorem policyClear_input (s : State) : (policyClear s).input = s.input := by
  unfold policyClear; split <;> rfl
@[simp] theorem policyClear_alloc (s : State) : (policyClear s).alloc = s.alloc := by
  unfold policyClear; split <;> rfl
@[simp] theorem policyClear_out (s : State) : (policyClear s).out = s.out := by
  unfold policyClear; split <;> rfl
@[simp] theorem policyClear_events (s : State) : (policyClear s).events = s.events := by
  unfold policyClear; split <;> rfl

theorem policyClear_sticky {s : State} (h : s.params.pcfPolicy = .sticky) : policyClear s = s := by
  unfold policyClear; rw [h]

theorem policyClear_perPacket {s : State} (h : s.params.pcfPolicy = .perPacket) :
    policyClear s = { s with pcf := false } := by
  unfold policyClear; rw [h]

@[simp] theorem frameOf_buffer (s : State) : (frameOf s).buffer = s.live := rfl
@[simp] theorem frameOf_pal (s : State) : (frameOf s).pal = s.pal := rfl
@[simp] theorem frameOf_pcf (s : State) : (frameOf s).pcf = s.pcf := rfl

/-! ### Taking an error and ending a step -/

@[simp] theorem failed_raise (e : ErrorKind) (s : State) : failed (raise e s) = true := rfl

theorem failed_iff {s : State} : failed s = true ↔ ∃ e, s.out = some (.error e) := by
  unfold failed
  split
  · rename_i e he; simp [he]
  · rename_i hne
    exact ⟨fun h => by simp at h, fun ⟨e, he⟩ => absurd he (hne e)⟩

/-- A step that ended in an error keeps the state from before it (R285). -/
theorem finishStep_of_failed {before after : State} (h : failed after = true) :
    finishStep before after = { before with out := after.out, events := after.events } := if_pos h

/-- Any other step emits its frame (R137). -/
theorem finishStep_of_ok {before after : State} (h : failed after = false) : finishStep before after = emit after :=
  if_neg (by simp [h])

/-! ### The swap (R241) -/

/-- Everything the swap does when a new canvas is complete. -/
theorem swap_of_pending {s : State} {n : Buffer} (h : s.pending = some n) :
    swap s = { s with live := n, pending := none, phase := .idle, events := s.events ++ [.release s.live.handle] } := by
  unfold swap; rw [h]

theorem storeLive_eq_next {b : Option Buffer} {s t : State} :
    storeLive b s = .next t ↔ ∃ b', b = some b' ∧ t = setLive b' s := by
  cases b <;> simp [storeLive, eq_comm]

/-! ### The step -/

/-- With nothing pending the machine holds its state. -/
theorem step_idle {s : State} (h : s.input = []) : step s = .next s := by
  simp [step, stepWith, h]

/-- A record is run from the start of a step. -/
theorem step_packet {s : State} {r : Record} {al : Alloc} {rest : List HostAction} (h : s.input = .packet r al :: rest) :
    step s = runRecord exec r (beginStep al rest s) := by
  simp [step, stepWith, h]

/-- A reset by the host. -/
theorem step_reset {s : State} {b0 : Buffer} {rest : List HostAction} (h : s.input = .reset b0 :: rest) :
    step s = hostReset b0 { s with input := rest } := by
  simp [step, stepWith, h]

/-- A record of the wrong length (R281). -/
theorem runRecord_malformed {run : Instr → State → Host.Outcome State Fault Refusal} {r : Record} {s : State}
    (h : r.length ≠ packetSize) :
    runRecord run r s =
      .next { s with out := some (.error (.malformedPacket r.length)) } := by
  simp [runRecord, decode, h, finishStep]

/-- A record of 24 bytes: the decoded instruction runs on the state after the policy clear. -/
theorem runRecord_packet {run : Instr → State → Host.Outcome State Fault Refusal} {r : Record} {s : State}
    (h : r.length = packetSize) :
    runRecord run r s = mapNext (finishStep s) (run (decodePacket r) (policyClear s)) := by
  simp [runRecord, decode, h]

@[simp] theorem mapNext_next (k : State → State) (s : State) : mapNext k (.next s) = .next (k s) := rfl
@[simp] theorem mapNext_fault (k : State → State) (e : Fault) : mapNext k (.fault e) = .fault e := rfl
@[simp] theorem mapNext_refused (k : State → State) (e : Refusal) : mapNext k (.refused e) = .refused e := rfl

theorem mapNext_eq_next {k : State → State} {o : Host.Outcome State Fault Refusal} {t : State} :
    mapNext k o = .next t ↔ ∃ s, o = .next s ∧ t = k s := by
  cases o <;> simp [eq_comm]

end Sys2Proof.Machine
end

