-- ==== Sys2Proof/Laws/Preset.lean ====
section
/-! SUPPORT. What the presets, the palette loads and the tile painter do, each said once (spec/41_preset.md, 42_palette.md,
43_tile.md). -/

namespace Sys2Proof.Machine

/-! ### Presets -/

/-- A fill of the live canvas that fits always completes: the buffer keeps its handle and padding, and its pixels are
the colour inside the rectangle, as before outside. -/
theorem rectFill_total {b : Buffer} {t : Rect} (ht : rectFits t = true) (c : Color) :
    ∃ b', rectFill b t c = some b' ∧ b'.handle = b.handle ∧ b'.pad = b.pad ∧
      (∀ x < fullWidth, ∀ y, pixelAt b' x y = if rectHas t x y then pixelByte c else pixelAt b x y) ∧
      (∀ a, offsetInRect b.stride t a = false → readByte b'.mem a = readByte b.mem a) ∧
      (b.canonical → b'.canonical) ∧ (b.canonical → b.indexed → b'.indexed) := by
  cases h : rectFill b t c with
  | none => simp [rectFill_eq_none.1 h] at ht
  | some b' =>
    obtain ⟨hh, hp, hr⟩ := updateRect_spec h
    exact ⟨b', rfl, hh, hp, fun x hx y => pixelAt_rectFill h hx y, fun a ha => by simp [hr a, ha],
      canonical_updateRect h, fun hb hi => indexed_updateRect h hb hi fun _ _ _ _ => pixelByte_lt c⟩

/-- The border is the union of the four rectangles. -/
theorem onBorder_iff {x y : Nat} (hx : x < fullWidth) (hy : y < fullHeight) :
    onBorder x y ↔ rectHas topBorder x y = true ∨ rectHas bottomBorder x y = true ∨ rectHas leftBorder x y = true ∨
      rectHas rightBorder x y = true := by
  simp only [rectHas_iff, topBorder, bottomBorder, leftBorder, rightBorder, onBorder]
  simp only [fullWidth, fullHeight, borderWidth, borderHeight] at *
  omega

/-- The four fills of `BORDERPRESET` always complete: the border becomes the colour, the interior stays. -/
theorem fillBorder_total (b : Buffer) (c : Color) :
    ∃ b', fillBorder b c = some b' ∧ b'.handle = b.handle ∧ b'.pad = b.pad ∧
      (∀ x < fullWidth, ∀ y < fullHeight, pixelAt b' x y = if onBorder x y then pixelByte c else pixelAt b x y) ∧
      (∀ a, offsetInRect b.stride wholeCanvas a = false → readByte b'.mem a = readByte b.mem a) ∧
      (b.canonical → b'.canonical) ∧ (b.canonical → b.indexed → b'.indexed) := by
  obtain ⟨b1, e1, h1, p1, x1, r1, c1, i1⟩ := rectFill_total (b := b) (t := topBorder) (by decide) c
  obtain ⟨b2, e2, h2, p2, x2, r2, c2, i2⟩ := rectFill_total (b := b1) (t := bottomBorder) (by decide) c
  obtain ⟨b3, e3, h3, p3, x3, r3, c3, i3⟩ := rectFill_total (b := b2) (t := leftBorder) (by decide) c
  obtain ⟨b4, e4, h4, p4, x4, r4, c4, i4⟩ := rectFill_total (b := b3) (t := rightBorder) (by decide) c
  have s1 : b1.stride = b.stride := by rw [Buffer.stride, p1, Buffer.stride]
  have s2 : b2.stride = b.stride := by rw [Buffer.stride, p2, ← s1, Buffer.stride]
  have s3 : b3.stride = b.stride := by rw [Buffer.stride, p3, ← s2, Buffer.stride]
  have out : ∀ {t : Rect}, rectFits t = true → ∀ {a}, offsetInRect b.stride wholeCanvas a = false →
      offsetInRect b.stride t a = false := by
    intro t ht a ha
    by_contra hn
    rw [offsetInRect_wholeCanvas ht (by simpa using hn)] at ha
    simp at ha
  refine ⟨b4, by simp [fillBorder, e1, e2, e3, e4], by rw [h4, h3, h2, h1], by rw [p4, p3, p2, p1], ?_, ?_, ?_, ?_⟩
  · intro x hx y hy
    rw [x4 x hx y, x3 x hx y, x2 x hx y, x1 x hx y, if_congr (onBorder_iff hx hy) rfl rfl]
    cases rectHas topBorder x y <;> cases rectHas bottomBorder x y <;> cases rectHas leftBorder x y <;>
      cases rectHas rightBorder x y <;> rfl
  · intro a ha
    rw [r4 a (s3 ▸ out (by decide) ha), r3 a (s2 ▸ out (by decide) ha), r2 a (s1 ▸ out (by decide) ha),
      r1 a (out (by decide) ha)]
  · exact fun h => c4 (c3 (c2 (c1 h)))
  · exact fun h hi => i4 (c3 (c2 (c1 h))) (i3 (c2 (c1 h)) (i2 (c1 h) (i1 h hi)))

/-- Everything a preset does: with repeat 0 the fill, otherwise nothing (R161). -/
theorem whenFirst_zero (fill : State → Host.Outcome State Fault Refusal) (s : State) : whenFirst 0 fill s = fill s := rfl

theorem whenFirst_repeated {rep : BitVec 4} (h : rep ≠ 0) (fill : State → Host.Outcome State Fault Refusal) (s : State) :
    whenFirst rep fill s = .next s := if_neg h

theorem execMemPreset_zero (color : Color) (s : State) :
    execMemPreset color 0 s = storeLive (rectFill s.live wholeCanvas color) s := rfl

theorem execBorderPreset_zero (color : Color) (s : State) :
    execBorderPreset color 0 s = storeLive (fillBorder s.live color) s := rfl

theorem execMemPreset_repeated {rep : BitVec 4} (h : rep ≠ 0) (color : Color) (s : State) :
    execMemPreset color rep s = .next s := by
  rw [execMemPreset, whenFirst_repeated h]

theorem execBorderPreset_repeated {rep : BitVec 4} (h : rep ≠ 0) (color : Color) (s : State) :
    execBorderPreset color rep s = .next s := by
  rw [execBorderPreset, whenFirst_repeated h]

/-! ### Palette loads -/

/-- Entry `i` after a low load (R180). -/
theorem getElem_loadLow (p : Palette) (rgb : ColorEntries) (i : Fin 16) :
    (loadLow p rgb)[i] = if h : i.val < 8 then rgbOf rgb[i.val] else p[i] := by
  fin_cases i <;> rfl

/-- Entry `i` after a high load (R181). -/
theorem getElem_loadHigh (p : Palette) (rgb : ColorEntries) (i : Fin 16) :
    (loadHigh p rgb)[i] = if h : 8 ≤ i.val then rgbOf (rgb[i.val - 8]'(by omega)) else p[i] := by
  fin_cases i <;> rfl

theorem scaleChannel_toNat (v : BitVec 4) : (scaleChannel v).toNat = 17 * v.toNat := by
  have := v.isLt
  rw [scaleChannel, BitVec.toNat_ofNat, Nat.mod_eq_of_lt (by simp only [colorScale]; omega)]

/-! ### Tiles -/

/-- The tile is clipped exactly when its last pixel would leave the canvas (R201). -/
theorem tileClipped_iff (rowf : BitVec 5) (colf : BitVec 6) (s : State) :
    tileClipped rowf colf s = true ↔ tileRow rowf + s.vs.toNat > 204 ∨ tileCol colf + s.hs.toNat > 294 := by
  simp only [tileClipped, clipped, fullHeight, tileHeight, fullWidth, tileWidth, Bool.or_eq_true, gt_iff_lt, decide_eq_true_eq]
  omega

/-- A tile that is not clipped lies inside the canvas (R204). -/
theorem rectFits_tileRect {rowf : BitVec 5} {colf : BitVec 6} {s : State} (h : tileClipped rowf colf s = false) :
    rectFits (tileRect rowf colf s) = true := by
  rw [← Bool.not_eq_true, tileClipped_iff] at h
  rw [rectFits_iff]
  simp only [tileRect, fullWidth, tileWidth, fullHeight, tileHeight]
  omega

theorem paintTile_clipped {rowf : BitVec 5} {colf : BitVec 6} {s : State} (h : tileClipped rowf colf s = true)
    (mode : Byte → Byte → Byte) (c0 c1 : Color) (bm : Bitmap) : paintTile mode c0 c1 rowf colf bm s = .next s := by
  simp [paintTile, h]

/-- Everything the tile painter does where the tile is not clipped: it completes; inside the tile each pixel becomes `mode`
of its value before and the tile's colour; every byte outside, and the buffer's handle and padding, stay. -/
theorem paintTile_painted {rowf : BitVec 5} {colf : BitVec 6} {s : State} (h : tileClipped rowf colf s = false)
    (mode : Byte → Byte → Byte) (c0 c1 : Color) (bm : Bitmap) :
    ∃ b', paintTile mode c0 c1 rowf colf bm s = .next (setLive b' s) ∧
      b'.handle = s.live.handle ∧ b'.pad = s.live.pad ∧
      (∀ x < fullWidth, ∀ y, pixelAt b' x y =
        if rectHas (tileRect rowf colf s) x y then
          mode (pixelAt s.live x y)
            (tileColor c0 c1 bm (x - (tileRect rowf colf s).x) (y - (tileRect rowf colf s).y))
        else pixelAt s.live x y) ∧
      (∀ a, offsetInRect s.live.stride (tileRect rowf colf s) a = false → readByte b'.mem a = readByte s.live.mem a) ∧
      (s.live.canonical → b'.canonical) ∧
      ((∀ p v : Byte, p.toNat < 16 → v.toNat < 16 → (mode p v).toNat < 16) →
        s.live.canonical → s.live.indexed → b'.indexed) := by
  rw [paintTile, if_neg (by simp [h])]
  cases hu : updateRect s.live (tileRect rowf colf s) fun i j p => mode p (tileColor c0 c1 bm i j) with
  | none => simp [updateRect_eq_none, rectFits_tileRect h] at hu
  | some b' =>
    obtain ⟨hh, hp, hr⟩ := updateRect_spec hu
    exact ⟨b', rfl, hh, hp, fun x hx y => pixelAt_updateRect hu hx y, fun a ha => by simp [hr a, ha],
      canonical_updateRect hu, fun hm hb hi => indexed_updateRect hu hb hi fun i j p hpp => hm _ _ hpp (pixelByte_lt _)⟩

theorem xor_lt_sixteen (p v : Byte) (hp : p.toNat < 16) (hv : v.toNat < 16) : (p ^^^ v).toNat < 16 := by
  rw [BitVec.toNat_xor]
  exact Nat.xor_lt_two_pow (n := 4) hp hv

end Sys2Proof.Machine
end

