-- ==== Sys2Proof/Laws/Scroll.lean ====
section
/-! SUPPORT. What the scroll engine does, said once: the build of a canvas in closed form (spec/44_scroll.md R244), and the
four outcomes of a scroll (R233, R234, R241, R248). -/

namespace Sys2Proof.Machine

/-! ### The net shift (R231) -/

theorem hdir_cases (c : BitVec 2) : hdir c = 0 ∨ hdir c = 6 ∨ hdir c = -6 := by
  unfold hdir hStep; split_ifs <;> simp

theorem vdir_cases (c : BitVec 2) : vdir c = 0 ∨ vdir c = 12 ∨ vdir c = -12 := by
  unfold vdir vStep; split_ifs <;> simp

/-- The horizontal shift is far smaller than the canvas, whatever the offsets. -/
theorem hinc_natAbs_le (c : BitVec 2) (hoff hs : BitVec 3) : (hinc c hoff hs).natAbs ≤ 13 := by
  have := hdir_cases c
  have := hoff.isLt
  have := hs.isLt
  unfold hinc
  omega

/-- The vertical shift is far smaller than the canvas, whatever the offsets. -/
theorem vinc_natAbs_le (c : BitVec 2) (voff vs : BitVec 4) : (vinc c voff vs).natAbs ≤ 27 := by
  have := vdir_cases c
  have := voff.isLt
  have := vs.isLt
  unfold vinc
  omega

/-! ### The build -/

/-- A canonical buffer is indexed if every pixel of the canvas is. -/
theorem indexed_of_pixels {b : Buffer} (hb : b.canonical)
    (h : ∀ x < fullWidth, ∀ y < fullHeight, (pixelAt b x y).toNat < 16) : b.indexed := by
  intro c hc
  have hin := hb.2 c hc
  rw [offsetInRect, rectHas_iff] at hin
  simp only [wholeCanvas, Nat.zero_add] at hin
  have := h _ hin.1.2 _ hin.2.2
  rwa [pixelAt, pixelOffset_of_offset, readByte_of_mem hb.1.1 hc] at this

theorem pixelAt_lt {b : Buffer} (hb : b.canonical) (hi : b.indexed) (x y : Nat) : (pixelAt b x y).toNat < 16 :=
  (indexed_iff hb.1).1 hi _

/-- A copy between rectangles that fit always completes. -/
theorem rectCopy_total {n o : Buffer} {dx dy : Nat} {src : Rect} (hd : rectFits ⟨dx, dy, src.w, src.h⟩ = true)
    (hs : rectFits src = true) :
    ∃ n', rectCopy n o dx dy src = some n' ∧ n'.handle = n.handle ∧ n'.pad = n.pad ∧
      (∀ x < fullWidth, ∀ y, pixelAt n' x y =
        if rectHas ⟨dx, dy, src.w, src.h⟩ x y then pixelAt o (x - dx + src.x) (y - dy + src.y) else pixelAt n x y) ∧
      (n.canonical → o.canonical → n'.canonical) ∧ ∀ a, offCanvas n a → readByte n'.mem a = readByte n.mem a := by
  cases h : rectCopy n o dx dy src with
  | none => simp [rectCopy_eq_none, hd, hs] at h
  | some n' =>
    obtain ⟨hh, hp, hr⟩ := rectCopy_spec h
    exact ⟨n', rfl, hh, hp, fun x hx y => pixelAt_rectCopy h hx y, canonical_rectCopy h,
      fun a ha => by simp [hr a, offsetInRect_of_offCanvas hd ha]⟩

/-- A band whose rectangle and source fit is always filled. -/
theorem fillBand_total (mode : FillMode) (o n : Buffer) {band : Rect} {sx sy : Nat} (hd : rectFits band = true)
    (hs : rectFits ⟨sx, sy, band.w, band.h⟩ = true) :
    ∃ n', fillBand mode o n band sx sy = some n' ∧ n'.handle = n.handle ∧ n'.pad = n.pad ∧
      (∀ x < fullWidth, ∀ y, pixelAt n' x y =
        if rectHas band x y then bandPixel mode o ((x - band.x + sx : Nat) : Int) ((y - band.y + sy : Nat) : Int)
        else pixelAt n x y) ∧
      (n.canonical → o.canonical → n'.canonical) ∧ ∀ a, offCanvas n a → readByte n'.mem a = readByte n.mem a := by
  cases mode with
  | preset c =>
    obtain ⟨n', h, hh, hp, hx, hr, hc, -⟩ := rectFill_total (b := n) hd c
    exact ⟨n', h, hh, hp, hx, fun hn _ => hc hn, fun a ha => hr a (offsetInRect_of_offCanvas hd ha)⟩
  | copy =>
    obtain ⟨n', h, hh, hp, hx, hc⟩ :=
      rectCopy_total (n := n) (o := o) (dx := band.x) (dy := band.y) (src := ⟨sx, sy, band.w, band.h⟩) hd hs
    exact ⟨n', h, hh, hp, hx, hc⟩

theorem mainCopy_total {hi vi : Int} (hh : hi.natAbs ≤ fullWidth) (hv : vi.natAbs ≤ fullHeight) (o n : Buffer) :
    ∃ n', mainCopy hi vi o n = some n' ∧ n'.handle = n.handle ∧ n'.pad = n.pad ∧
      (∀ x < fullWidth, ∀ y < fullHeight, pixelAt n' x y =
        if (0 ≤ (x : Int) - hi ∧ (x : Int) - hi < fullWidth) ∧ 0 ≤ (y : Int) - vi ∧ (y : Int) - vi < fullHeight then
          pixelAt o ((x : Int) - hi).toNat ((y : Int) - vi).toNat
        else pixelAt n x y) ∧
      (n.canonical → o.canonical → n'.canonical) ∧ ∀ a, offCanvas n a → readByte n'.mem a = readByte n.mem a := by
  obtain ⟨n', e, h1, h2, h3, h4⟩ := rectCopy_total (n := n) (o := o) (dx := hi.toNat) (dy := vi.toNat)
    (src := ⟨(-hi).toNat, (-vi).toNat, fullWidth - hi.natAbs, fullHeight - vi.natAbs⟩)
    (rectFits_iff.2 (by simp only; omega)) (rectFits_iff.2 (by simp only; omega))
  refine ⟨n', e, h1, h2, fun x hx y hy => ?_, h4⟩
  rw [h3 x hx y]
  have hiff : rectHas ⟨hi.toNat, vi.toNat, fullWidth - hi.natAbs, fullHeight - vi.natAbs⟩ x y = true ↔
      (0 ≤ (x : Int) - hi ∧ (x : Int) - hi < fullWidth) ∧ 0 ≤ (y : Int) - vi ∧ (y : Int) - vi < fullHeight := by
    rw [rectHas_iff]; simp only; omega
  by_cases hr : rectHas ⟨hi.toNat, vi.toNat, fullWidth - hi.natAbs, fullHeight - vi.natAbs⟩ x y = true
  · rw [if_pos hr, if_pos (hiff.1 hr)]
    have := hiff.1 hr
    congr 1 <;> simp only <;> omega
  · rw [if_neg hr, if_neg fun h => hr (hiff.2 h)]

theorem verticalBand_total {vi : Int} (hv : vi.natAbs ≤ fullHeight) (mode : FillMode) (o n : Buffer) :
    ∃ n', verticalBand mode vi o n = some n' ∧ n'.handle = n.handle ∧ n'.pad = n.pad ∧
      (∀ x < fullWidth, ∀ y < fullHeight, pixelAt n' x y =
        if vi > 0 ∧ (y : Int) < vi then bandPixel mode o x (y + 216 - vi)
        else if vi < 0 ∧ (y : Int) ≥ 216 + vi then bandPixel mode o x (y - 216 - vi)
        else pixelAt n x y) ∧
      (n.canonical → o.canonical → n'.canonical) ∧ ∀ a, offCanvas n a → readByte n'.mem a = readByte n.mem a := by
  rw [fullHeight] at hv
  unfold verticalBand
  rcases lt_trichotomy vi 0 with h | rfl | h
  · rw [if_neg (by omega), if_pos h]
    obtain ⟨n', e, h1, h2, h3, h4⟩ := fillBand_total mode o n
      (band := ⟨0, fullHeight - (-vi).toNat, fullWidth, (-vi).toNat⟩) (sx := 0) (sy := 0)
      (rectFits_iff.2 (by simp only [fullWidth, fullHeight]; omega))
      (rectFits_iff.2 (by simp only [fullWidth, fullHeight]; omega))
    refine ⟨n', e, h1, h2, fun x hx y hy => ?_, h4⟩
    rw [h3 x hx y]
    rw [fullWidth] at hx
    rw [fullHeight] at hy
    have hiff : rectHas ⟨0, fullHeight - (-vi).toNat, fullWidth, (-vi).toNat⟩ x y = true ↔
        (y : Int) ≥ 216 + vi := by
      rw [rectHas_iff]; simp only [fullWidth, fullHeight]; omega
    rw [if_neg (c := vi > 0 ∧ (y : Int) < vi) (by omega)]
    by_cases hr : (y : Int) ≥ 216 + vi
    · rw [if_pos (hiff.2 hr), if_pos ⟨h, hr⟩]
      (congr 1; simp only [fullHeight]; omega)
    · rw [if_neg fun h => hr (hiff.1 h), if_neg fun h => hr h.2]
  · exact ⟨n, by simp, rfl, rfl, by simp, fun hn _ => hn, fun _ _ => rfl⟩
  · rw [if_pos h]
    obtain ⟨n', e, h1, h2, h3, h4⟩ := fillBand_total mode o n
      (band := ⟨0, 0, fullWidth, vi.toNat⟩) (sx := 0) (sy := fullHeight - vi.toNat)
      (rectFits_iff.2 (by simp only [fullWidth, fullHeight]; omega))
      (rectFits_iff.2 (by simp only [fullWidth, fullHeight]; omega))
    refine ⟨n', e, h1, h2, fun x hx y hy => ?_, h4⟩
    rw [h3 x hx y]
    rw [fullWidth] at hx
    rw [fullHeight] at hy
    have hiff : rectHas ⟨0, 0, fullWidth, vi.toNat⟩ x y = true ↔ (y : Int) < vi := by
      rw [rectHas_iff]; simp only [fullWidth]; omega
    rw [if_neg (c := vi < 0 ∧ (y : Int) ≥ 216 + vi) (by omega)]
    by_cases hr : (y : Int) < vi
    · rw [if_pos (hiff.2 hr), if_pos ⟨h, hr⟩]
      (congr 1; simp only [fullHeight]; omega)
    · rw [if_neg fun h => hr (hiff.1 h), if_neg fun h => hr h.2]

theorem horizontalBand_total {hi : Int} (hh : hi.natAbs ≤ fullWidth) (mode : FillMode) (o n : Buffer) :
    ∃ n', horizontalBand mode hi o n = some n' ∧ n'.handle = n.handle ∧ n'.pad = n.pad ∧
      (∀ x < fullWidth, ∀ y < fullHeight, pixelAt n' x y =
        if hi > 0 ∧ (x : Int) < hi then bandPixel mode o (x + 300 - hi) y
        else if hi < 0 ∧ (x : Int) ≥ 300 + hi then bandPixel mode o (x - 300 - hi) y
        else pixelAt n x y) ∧
      (n.canonical → o.canonical → n'.canonical) ∧ ∀ a, offCanvas n a → readByte n'.mem a = readByte n.mem a := by
  rw [fullWidth] at hh
  unfold horizontalBand
  rcases lt_trichotomy hi 0 with h | rfl | h
  · rw [if_neg (by omega), if_pos h]
    obtain ⟨n', e, h1, h2, h3, h4⟩ := fillBand_total mode o n
      (band := ⟨fullWidth - (-hi).toNat, 0, (-hi).toNat, fullHeight⟩) (sx := 0) (sy := 0)
      (rectFits_iff.2 (by simp only [fullWidth, fullHeight]; omega))
      (rectFits_iff.2 (by simp only [fullWidth, fullHeight]; omega))
    refine ⟨n', e, h1, h2, fun x hx y hy => ?_, h4⟩
    rw [h3 x hx y]
    rw [fullWidth] at hx
    rw [fullHeight] at hy
    have hiff : rectHas ⟨fullWidth - (-hi).toNat, 0, (-hi).toNat, fullHeight⟩ x y = true ↔
        (x : Int) ≥ 300 + hi := by
      rw [rectHas_iff]; simp only [fullWidth, fullHeight]; omega
    rw [if_neg (c := hi > 0 ∧ (x : Int) < hi) (by omega)]
    by_cases hr : (x : Int) ≥ 300 + hi
    · rw [if_pos (hiff.2 hr), if_pos ⟨h, hr⟩]
      (congr 1; simp only [fullWidth]; omega)
    · rw [if_neg fun h => hr (hiff.1 h), if_neg fun h => hr h.2]
  · exact ⟨n, by simp, rfl, rfl, by simp, fun hn _ => hn, fun _ _ => rfl⟩
  · rw [if_pos h]
    obtain ⟨n', e, h1, h2, h3, h4⟩ := fillBand_total mode o n
      (band := ⟨0, 0, hi.toNat, fullHeight⟩) (sx := fullWidth - hi.toNat) (sy := 0)
      (rectFits_iff.2 (by simp only [fullWidth, fullHeight]; omega))
      (rectFits_iff.2 (by simp only [fullWidth, fullHeight]; omega))
    refine ⟨n', e, h1, h2, fun x hx y hy => ?_, h4⟩
    rw [h3 x hx y]
    rw [fullWidth] at hx
    rw [fullHeight] at hy
    have hiff : rectHas ⟨0, 0, hi.toNat, fullHeight⟩ x y = true ↔ (x : Int) < hi := by
      rw [rectHas_iff]; simp only [fullHeight]; omega
    rw [if_neg (c := hi < 0 ∧ (x : Int) ≥ 300 + hi) (by omega)]
    by_cases hr : (x : Int) < hi
    · rw [if_pos (hiff.2 hr), if_pos ⟨h, hr⟩]
      (congr 1; simp only [fullWidth]; omega)
    · rw [if_neg fun h => hr (hiff.1 h), if_neg fun h => hr h.2]

/-- Everything the build does (R239, R240, R244): it completes; the new buffer keeps its handle, its padding and
every byte that is no pixel; every pixel of it is the closed form over the old canvas, whatever it held before. -/
theorem buildCanvas_total {hi vi : Int} (hh : hi.natAbs ≤ fullWidth) (hv : vi.natAbs ≤ fullHeight) (mode : FillMode)
    (o n : Buffer) :
    ∃ n', buildCanvas mode hi vi o n = some n' ∧ n'.handle = n.handle ∧ n'.pad = n.pad ∧
      (∀ x < fullWidth, ∀ y < fullHeight, pixelAt n' x y = scrolledPixel mode hi vi o x y) ∧
      (n.canonical → o.canonical → n'.canonical) ∧ ∀ a, offCanvas n a → readByte n'.mem a = readByte n.mem a := by
  obtain ⟨n1, e1, h1, p1, x1, c1, r1⟩ := mainCopy_total hh hv o n
  obtain ⟨n2, e2, h2, p2, x2, c2, r2⟩ := verticalBand_total hv mode o n1
  obtain ⟨n3, e3, h3, p3, x3, c3, r3⟩ := horizontalBand_total hh mode o n2
  refine ⟨n3, by simp [buildCanvas, e1, e2, e3], by rw [h3, h2, h1], by rw [p3, p2, p1], fun x hx y hy => ?_,
    fun hn ho => c3 (c2 (c1 hn ho) ho) ho, fun a ha => ?_⟩
  · rw [x3 x hx y hy, x2 x hx y hy, x1 x hx y hy, scrolledPixel]
    rw [fullWidth] at hx
    rw [fullHeight] at hy
    by_cases a1 : hi > 0 ∧ (x : Int) < hi
    · rw [if_pos a1, if_pos a1]
    rw [if_neg a1, if_neg a1]
    by_cases a2 : hi < 0 ∧ (x : Int) ≥ 300 + hi
    · rw [if_pos a2, if_pos a2]
    rw [if_neg a2, if_neg a2]
    by_cases a3 : vi > 0 ∧ (y : Int) < vi
    · rw [if_pos a3, if_pos a3]
    rw [if_neg a3, if_neg a3]
    by_cases a4 : vi < 0 ∧ (y : Int) ≥ 216 + vi
    · rw [if_pos a4, if_pos a4]
    rw [if_neg a4, if_neg a4, if_pos (by simp only [fullWidth, fullHeight]; omega)]
  · have ha1 := (offCanvas_congr p1 a).2 ha
    rw [r3 a ((offCanvas_congr p2 a).2 ha1), r2 a ha1, r1 a ha]

/-- A pixel of the closed form over an indexed canvas is a palette index. -/
theorem scrolledPixel_lt {o : Buffer} (ho : o.canonical) (hi : o.indexed) (mode : FillMode) (h v : Int) (x y : Nat) :
    (scrolledPixel mode h v o x y).toNat < 16 := by
  have hb : ∀ sx sy, (bandPixel mode o sx sy).toNat < 16 := by
    intro sx sy
    cases mode
    · exact pixelByte_lt _
    · exact pixelAt_lt ho hi _ _
  unfold scrolledPixel
  split_ifs <;> first | exact hb _ _ | exact pixelAt_lt ho hi _ _

/-- The closed form over a shift smaller than the canvas reads pixels of the canvas only. -/
theorem scrolledPixel_congr {o o' : Buffer}
    (h : ∀ x < fullWidth, ∀ y < fullHeight, pixelAt o x y = pixelAt o' x y) {hi vi : Int}
    (hh : hi.natAbs ≤ fullWidth) (hv : vi.natAbs ≤ fullHeight) (mode : FillMode) {x y : Nat} (hx : x < fullWidth)
    (hy : y < fullHeight) : scrolledPixel mode hi vi o x y = scrolledPixel mode hi vi o' x y := by
  simp only [fullWidth, fullHeight] at h hh hv hx hy
  unfold scrolledPixel
  split_ifs <;> first | exact h _ (by omega) _ (by omega) | skip
  all_goals
    cases mode with
    | preset c => rfl
    | copy => exact h _ (by omega) _ (by omega)

/-! ### The four outcomes of a scroll -/

variable {mode : FillMode} {hcmd : BitVec 2} {hoff : BitVec 3} {vcmd : BitVec 2} {voff : BitVec 4} {s : State}

/-- Zero net shift: the offsets only (R233). -/
theorem scroll_zero (h : hinc hcmd hoff s.hs = 0 ∧ vinc vcmd voff s.vs = 0) :
    scroll mode hcmd hoff vcmd voff s = .next (setOffsets hoff voff s) := if_pos h

/-- Nonzero net shift and `Deny`: the error, with the request issued (R234, R248). -/
theorem scroll_deny (h : ¬ (hinc hcmd hoff s.hs = 0 ∧ vinc vcmd voff s.vs = 0)) (ha : s.alloc = .deny) :
    scroll mode hcmd hoff vcmd voff s = .next (raise .bufferAllocationFailure (requestBuffer s)) := by
  simp [scroll, h, withGrant, ha]

/-- Nonzero net shift and a grant of the held buffer: no move (R289, decision D20). -/
theorem scroll_held (h : ¬ (hinc hcmd hoff s.hs = 0 ∧ vinc vcmd voff s.vs = 0)) {b : Buffer} (ha : s.alloc = .grant b)
    (hb : b.handle = s.live.handle) :
    scroll mode hcmd hoff vcmd voff s = .refused .heldBufferGranted := by
  simp [scroll, h, withGrant, ha, hb]

/-- Nonzero net shift and `Grant(b)`: the new canvas in closed form, live in the granted buffer, with the new offsets, the
controller idle, and `Acquire()`, `Release(old)` issued (R232, R241, R244, R248); everything else as before. -/
theorem scroll_grant (h : ¬ (hinc hcmd hoff s.hs = 0 ∧ vinc vcmd voff s.vs = 0)) {b : Buffer} (ha : s.alloc = .grant b)
    (hb : b.handle ≠ s.live.handle) :
    ∃ n, scroll mode hcmd hoff vcmd voff s =
        .next { s with
          live := n, hs := hoff, vs := voff, phase := .idle, pending := none,
          events := s.events ++ [.acquire, .release s.live.handle] } ∧
      n.handle = b.handle ∧ n.pad = b.pad ∧
      (∀ x < fullWidth, ∀ y < fullHeight,
        pixelAt n x y = scrolledPixel mode (hinc hcmd hoff s.hs) (vinc vcmd voff s.vs) s.live x y) ∧
      (b.canonical → s.live.canonical → n.canonical) ∧ ∀ a, offCanvas b a → readByte n.mem a = readByte b.mem a := by
  obtain ⟨n, e, h1, h2, h3, h4⟩ := buildCanvas_total
    (Nat.le_trans (hinc_natAbs_le hcmd hoff s.hs) (by decide)) (Nat.le_trans (vinc_natAbs_le vcmd voff s.vs) (by decide))
    mode s.live b
  refine ⟨n, ?_, h1, h2, h3, h4⟩
  simp only [scroll, if_neg h, withGrant, requestBuffer_alloc, ha, requestBuffer_live, if_neg hb, buildAndSwap, e]
  simp [swap, setOffsets, endBuild, beginBuild, requestBuffer, ha]

end Sys2Proof.Machine
end

