-- ==== Sys2Proof/Laws/Exec.lean ====
section
/-! SUPPORT. What an instruction and a step can do, said once: the inversion of `exec`, that it never faults, and when it
answers a next state. -/

namespace Sys2Proof.Machine

/-- A change of the live buffer's pixels only: handle, padding and every byte that is no pixel stay; the canonical form and
the range of the pixels are kept. -/
structure PixelsOnly (o b : Buffer) : Prop where
  handle : b.handle = o.handle
  pad : b.pad = o.pad
  bytes : ∀ a, offCanvas o a → readByte b.mem a = readByte o.mem a
  canonical : o.canonical → b.canonical
  indexed : o.canonical → o.indexed → b.indexed

/-- Everything `exec` can do when it answers a next state. -/
inductive ExecEffect (i : Instr) (s : State) : State → Prop where
  /-- Nothing: a repeated preset, a clipped tile, a no-op. -/
  | unchanged (hl : isPaletteLoad i = false) (ho : scrollOperands i = none) : ExecEffect i s s
  /-- Pixels of the live canvas: a preset or a tile. -/
  | pixels {b : Buffer} (hl : isPaletteLoad i = false) (ho : scrollOperands i = none) (hn : i ≠ .nop)
      (hb : PixelsOnly s.live b) : ExecEffect i s (setLive b s)
  /-- Eight palette entries and the flag. -/
  | palette {p : Palette} (hl : isPaletteLoad i = true) (ho : scrollOperands i = none)
      (hp : paletteScaled s.pal → paletteScaled p) : ExecEffect i s (setPcf (setPal p s))
  /-- The offsets: a scroll with zero net shift. -/
  | offsets {hcmd hoff vcmd voff} (hl : isPaletteLoad i = false)
      (ho : scrollOperands i = some (hcmd, hoff, vcmd, voff))
      (hz : hinc hcmd hoff s.hs = 0 ∧ vinc vcmd voff s.vs = 0) : ExecEffect i s (setOffsets hoff voff s)
  /-- The error: a scroll with nonzero net shift, denied. -/
  | denied (hl : isPaletteLoad i = false) (hs : shifts i s) (ha : s.alloc = .deny) :
      ExecEffect i s (raise .bufferAllocationFailure (requestBuffer s))
  /-- The swap: a scroll with nonzero net shift, granted a buffer not held. -/
  | swapped {mode hcmd hoff vcmd voff} {b n : Buffer} (hl : isPaletteLoad i = false)
      (ho : scrollOperands i = some (hcmd, hoff, vcmd, voff))
      (hz : ¬ (hinc hcmd hoff s.hs = 0 ∧ vinc vcmd voff s.vs = 0)) (ha : s.alloc = .grant b)
      (hb : b.handle ≠ s.live.handle) (hh : n.handle = b.handle) (hp : n.pad = b.pad)
      (hx : ∀ x < fullWidth, ∀ y < fullHeight,
        pixelAt n x y = scrolledPixel mode (hinc hcmd hoff s.hs) (vinc vcmd voff s.vs) s.live x y)
      (hc : b.canonical → s.live.canonical → n.canonical)
      (hbytes : ∀ a, offCanvas b a → readByte n.mem a = readByte b.mem a) :
      ExecEffect i s { s with
        live := n, hs := hoff, vs := voff, phase := .idle, pending := none,
        events := s.events ++ [.acquire, .release s.live.handle] }

theorem pixelsOnly_of_total {o b : Buffer} {t : Rect} (ht : rectFits t = true) (hh : b.handle = o.handle)
    (hp : b.pad = o.pad) (hr : ∀ a, offsetInRect o.stride t a = false → readByte b.mem a = readByte o.mem a)
    (hc : o.canonical → b.canonical) (hi : o.canonical → o.indexed → b.indexed) : PixelsOnly o b :=
  ⟨hh, hp, fun a ha => hr a (offsetInRect_of_offCanvas ht ha), hc, hi⟩

theorem rgbOf_scaled (c : Rgb12) :
    (rgbOf c).r.toNat % colorScale = 0 ∧ (rgbOf c).g.toNat % colorScale = 0 ∧ (rgbOf c).b.toNat % colorScale = 0 := by
  simp [rgbOf, scaleChannel_toNat, colorScale]

theorem loadLow_scaled {p : Palette} (rgb : ColorEntries) (h : paletteScaled p) : paletteScaled (loadLow p rgb) := by
  intro i
  rw [getElem_loadLow]
  split
  · exact rgbOf_scaled _
  · exact h i

theorem loadHigh_scaled {p : Palette} (rgb : ColorEntries) (h : paletteScaled p) : paletteScaled (loadHigh p rgb) := by
  intro i
  rw [getElem_loadHigh]
  split
  · exact rgbOf_scaled _
  · exact h i

/-- The four outcomes of a scroll, as `ExecEffect` or the refusal. -/
theorem scroll_effect {i : Instr} (hl : isPaletteLoad i = false) {hcmd hoff vcmd voff}
    (ho : scrollOperands i = some (hcmd, hoff, vcmd, voff)) (mode : FillMode) (s : State) :
    (∃ t, scroll mode hcmd hoff vcmd voff s = .next t ∧ ExecEffect i s t) ∨
    (scroll mode hcmd hoff vcmd voff s = .refused .heldBufferGranted ∧ shifts i s ∧ ¬ grantsFresh s.alloc s) := by
  by_cases hz : hinc hcmd hoff s.hs = 0 ∧ vinc vcmd voff s.vs = 0
  · exact .inl ⟨_, scroll_zero hz, .offsets hl ho hz⟩
  · have hs : shifts i s := ⟨hcmd, hoff, vcmd, voff, ho, hz⟩
    cases ha : s.alloc with
    | deny => exact .inl ⟨_, scroll_deny hz ha, .denied hl hs ha⟩
    | grant b =>
      by_cases hb : b.handle = s.live.handle
      · exact .inr ⟨scroll_held hz ha hb, hs, fun h => h hb⟩
      · obtain ⟨n, e, h1, h2, h3, h4, h5⟩ := scroll_grant (mode := mode) hz ha hb
        exact .inl ⟨_, e, .swapped hl ho hz ha hb h1 h2 h3 h4 h5⟩

theorem paintTile_effect {i : Instr} (hl : isPaletteLoad i = false) (ho : scrollOperands i = none) (hn : i ≠ .nop)
    {mode : Byte → Byte → Byte} (hm : ∀ p v : Byte, p.toNat < 16 → v.toNat < 16 → (mode p v).toNat < 16)
    (c0 c1 : Color) (rowf : BitVec 5) (colf : BitVec 6) (bm : Bitmap) (s : State) :
    ∃ t, paintTile mode c0 c1 rowf colf bm s = .next t ∧ ExecEffect i s t := by
  cases h : tileClipped rowf colf s with
  | true => exact ⟨s, paintTile_clipped h mode c0 c1 bm, .unchanged hl ho⟩
  | false =>
    obtain ⟨b, e, h1, h2, -, h4, h5, h6⟩ := paintTile_painted h mode c0 c1 bm
    exact ⟨_, e, .pixels hl ho hn (pixelsOnly_of_total (rectFits_tileRect h) h1 h2 h4 h5 (h6 hm))⟩

/-! What each arm of `exec` runs, so that no proof unfolds the dispatch. -/

theorem exec_memPreset (color : Color) (rep : BitVec 4) (s : State) :
    exec (.memPreset color rep) s = execMemPreset color rep s := rfl

theorem exec_borderPreset (color : Color) (rep : BitVec 4) (s : State) :
    exec (.borderPreset color rep) s = execBorderPreset color rep s := rfl

theorem exec_tile (c0 c1 : Color) (rowf : BitVec 5) (colf : BitVec 6) (bm : Bitmap) (s : State) :
    exec (.tile c0 c1 rowf colf bm) s = paintTile (fun _ v => v) c0 c1 rowf colf bm s := rfl

theorem exec_tileX (c0 c1 : Color) (rowf : BitVec 5) (colf : BitVec 6) (bm : Bitmap) (s : State) :
    exec (.tileX c0 c1 rowf colf bm) s = paintTile (fun p v => p ^^^ v) c0 c1 rowf colf bm s := rfl

theorem exec_scrollP (color : Color) (hcmd : BitVec 2) (hoff : BitVec 3) (vcmd : BitVec 2) (voff : BitVec 4) (s : State) :
    exec (.scrollP color hcmd hoff vcmd voff) s = scroll (.preset color) hcmd hoff vcmd voff s := rfl

theorem exec_scrollC (color : Color) (hcmd : BitVec 2) (hoff : BitVec 3) (vcmd : BitVec 2) (voff : BitVec 4) (s : State) :
    exec (.scrollC color hcmd hoff vcmd voff) s = scroll .copy hcmd hoff vcmd voff s := rfl

theorem exec_palLo (rgb : ColorEntries) (s : State) :
    exec (.palLo rgb) s = .next { s with pal := loadLow s.pal rgb, pcf := true } := rfl

theorem exec_palHi (rgb : ColorEntries) (s : State) :
    exec (.palHi rgb) s = .next { s with pal := loadHigh s.pal rgb, pcf := true } := rfl

/-- `exec` answers a next state of one of the shapes of `ExecEffect`, or, for a shifting scroll whose host grants the held
buffer, the refusal; it never faults. -/
theorem exec_effect (i : Instr) (s : State) :
    (∃ t, exec i s = .next t ∧ ExecEffect i s t) ∨
    (exec i s = .refused .heldBufferGranted ∧ shifts i s ∧ ¬ grantsFresh s.alloc s) := by
  cases i with
  | memPreset color rep =>
    left
    by_cases hrep : rep = 0
    · subst hrep
      obtain ⟨b, e, h1, h2, -, h4, h5, h6⟩ := rectFill_total (b := s.live) (t := wholeCanvas) (by decide) color
      exact ⟨setLive b s, by rw [exec, execMemPreset_zero, e, storeLive],
        .pixels rfl rfl (by simp) (pixelsOnly_of_total (by decide) h1 h2 h4 h5 h6)⟩
    · exact ⟨s, by rw [exec, execMemPreset_repeated hrep], .unchanged rfl rfl⟩
  | borderPreset color rep =>
    left
    by_cases hrep : rep = 0
    · subst hrep
      obtain ⟨b, e, h1, h2, -, h4, h5, h6⟩ := fillBorder_total s.live color
      exact ⟨setLive b s, by rw [exec, execBorderPreset_zero, e, storeLive],
        .pixels rfl rfl (by simp) ⟨h1, h2, h4, h5, h6⟩⟩
    · exact ⟨s, by rw [exec, execBorderPreset_repeated hrep], .unchanged rfl rfl⟩
  | tile c0 c1 rowf colf bm =>
    exact .inl (paintTile_effect rfl rfl (by simp) (fun _ _ _ hv => hv) c0 c1 rowf colf bm s)
  | tileX c0 c1 rowf colf bm => exact .inl (paintTile_effect rfl rfl (by simp) xor_lt_sixteen c0 c1 rowf colf bm s)
  | scrollP color hcmd hoff vcmd voff => exact scroll_effect rfl rfl _ s
  | scrollC color hcmd hoff vcmd voff => exact scroll_effect rfl rfl _ s
  | palLo rgb => exact .inl ⟨_, rfl, .palette rfl rfl (loadLow_scaled rgb)⟩
  | palHi rgb => exact .inl ⟨_, rfl, .palette rfl rfl (loadHigh_scaled rgb)⟩
  | nop => exact .inl ⟨s, rfl, .unchanged rfl rfl⟩

/-- The inversion of `exec`. -/
theorem exec_next {i : Instr} {s t : State} (h : exec i s = .next t) : ExecEffect i s t := by
  rcases exec_effect i s with ⟨t', e, ht⟩ | ⟨e, -⟩
  · rw [e] at h
    obtain rfl := (Host.Outcome.next.inj h).symm
    exact ht
  · simp [e] at h

/-! ### The end of a step -/

/-- Where an instruction started with no output record, the step fails exactly if the instruction was denied. -/
theorem failed_of_effect {i : Instr} {s t : State} (h : ExecEffect i s t) (hs : s.out = none) :
    failed t = true ↔ t = raise .bufferAllocationFailure (requestBuffer s) ∧ shifts i s ∧ s.alloc = .deny := by
  have key : ∀ {u : State}, u.out = s.out →
      (failed u = true ↔ u = raise .bufferAllocationFailure (requestBuffer s) ∧ shifts i s ∧ s.alloc = .deny) := by
    intro u hu
    rw [hs] at hu
    simp only [failed, hu, Bool.false_eq_true, false_iff]
    rintro ⟨rfl, -⟩
    simp at hu
  cases h with
  | unchanged => exact key rfl
  | pixels => exact key rfl
  | palette => exact key rfl
  | offsets => exact key rfl
  | denied _ hsh ha => simp [hsh, ha]
  | swapped => exact key rfl

/-! ### A whole step -/

/-- Whether an instruction shifts the canvas depends on the offsets only. -/
theorem shifts_congr {i : Instr} {s t : State} (hh : s.hs = t.hs) (hv : s.vs = t.vs) : shifts i s ↔ shifts i t := by
  rw [shifts, shifts, hh, hv]

/-- No instruction changes the parameters, the input or the answer. -/
theorem ExecEffect.const {i : Instr} {s t : State} (h : ExecEffect i s t) :
    t.params = s.params ∧ t.input = s.input ∧ t.alloc = s.alloc := by
  cases h <;> simp

/-- A reset always completes: the canvas is filled and every other element written. -/
theorem hostReset_total (b0 : Buffer) (s : State) :
    ∃ b, hostReset b0 s = .next { s with
        live := b, pal := s.params.initPalette, hs := 0, vs := 0, pcf := false,
        phase := .idle, pending := none, out := none, events := [] } ∧
      rectFill b0 wholeCanvas s.params.initPixel = some b := by
  obtain ⟨b, e, -⟩ := rectFill_total (b := b0) (t := wholeCanvas) (by decide) s.params.initPixel
  exact ⟨b, by rw [hostReset, e], e⟩

/-- Everything a step on a record can do: the malformed record; an instruction's effect and the frame; the denied scroll;
the refusal of a grant of the held buffer. -/
theorem step_record_cases {s : State} {r : Record} {al : Alloc} {rest : List HostAction}
    (hi : s.input = .packet r al :: rest) :
    (r.length ≠ packetSize ∧ step s =
      .next { beginStep al rest s with out := some (.error (.malformedPacket r.length)) }) ∨
    (r.length = packetSize ∧ ∃ u, ExecEffect (decodePacket r) (policyClear (beginStep al rest s)) u ∧
      failed u = false ∧ step s = .next (emit u)) ∨
    (r.length = packetSize ∧ shifts (decodePacket r) s ∧ al = .deny ∧ step s =
      .next { beginStep al rest s with out := some (.error .bufferAllocationFailure), events := [.acquire] }) ∨
    (r.length = packetSize ∧ shifts (decodePacket r) s ∧ ¬ grantsFresh al s ∧ step s = .refused .heldBufferGranted) := by
  by_cases hl : r.length = packetSize
  · right
    rw [step_packet hi, runRecord_packet hl]
    have hsh := shifts_congr (i := decodePacket r) (s := policyClear (beginStep al rest s)) (t := s) (by simp) (by simp)
    rcases exec_effect (decodePacket r) (policyClear (beginStep al rest s)) with ⟨u, e, hu⟩ | ⟨e, hs, hg⟩
    · rw [e, mapNext_next]
      cases hf : failed u with
      | false => exact .inl ⟨hl, u, hu, hf, by rw [finishStep_of_ok hf]⟩
      | true =>
        obtain ⟨rfl, hs, ha⟩ := (failed_of_effect hu (by simp)).1 hf
        refine .inr (.inl ⟨hl, hsh.1 hs, by simpa using ha, ?_⟩)
        rw [finishStep_of_failed hf]
        simp
    · refine .inr (.inr ⟨hl, hsh.1 hs, ?_, by rw [e]; rfl⟩)
      simpa [grantsFresh] using hg
  · exact .inl ⟨hl, by rw [step_packet hi, runRecord_malformed hl]⟩

end Sys2Proof.Machine
end

