-- ==== Sys2Proof/Laws/PerInstr.lean ====
section
/-! SUPPORT. Statements made per instruction: the packet of an instruction is 24 bytes long and its decode word selects the
instruction's own row of the opcode table (spec/30_encoding.md R90, R94, R95, R102). -/

namespace Sys2Proof

/-- The row of the opcode table an instruction belongs to (R94). -/
def opcodeOfInstr : Instr → Opcode
  | .memPreset _ _ => .memPreset
  | .borderPreset _ _ => .borderPreset
  | .tile _ _ _ _ _ => .tile
  | .scrollP _ _ _ _ _ => .scrollP
  | .scrollC _ _ _ _ _ => .scrollC
  | .palLo _ => .palLo
  | .palHi _ => .palHi
  | .tileX _ _ _ _ _ => .tileX
  | .nop => .nop

/-- The decode word of a packet with command 0x09 is its instruction code below the command. -/
theorem decodeWord_packet (ins : Byte) (data : List Byte) : decodeWord (packet ins data) = (0x09 : Byte) ++ ins := rfl

namespace Laws.EncodesItsRow

/-- The packet of the instruction has the right length and selects the instruction's row. -/
def Statement (i : Instr) : Prop :=
  (encode i).length = Machine.packetSize ∧ opcodeOf (decodeWord (encode i)) = opcodeOfInstr i

theorem of_packet {i : Instr} {ins : Byte} {data : List Byte} (he : encode i = packet ins data)
    (ho : opcodeOf ((0x09 : Byte) ++ ins) = opcodeOfInstr i) : Statement i :=
  ⟨encode_length i, by rw [he, decodeWord_packet, ho]⟩

theorem memPreset (color : Color) (rep : BitVec 4) : Statement (.memPreset color rep) :=
  of_packet rfl (by rw [opcodeOfInstr]; decide)

theorem borderPreset (color : Color) (rep : BitVec 4) : Statement (.borderPreset color rep) :=
  of_packet rfl (by rw [opcodeOfInstr]; decide)

theorem tile (c0 c1 : Color) (rowf : BitVec 5) (colf : BitVec 6) (bm : Bitmap) : Statement (.tile c0 c1 rowf colf bm) :=
  of_packet rfl (by rw [opcodeOfInstr]; decide)

theorem scrollP (color : Color) (hcmd : BitVec 2) (hoff : BitVec 3) (vcmd : BitVec 2) (voff : BitVec 4) :
    Statement (.scrollP color hcmd hoff vcmd voff) :=
  of_packet rfl (by rw [opcodeOfInstr]; decide)

theorem scrollC (color : Color) (hcmd : BitVec 2) (hoff : BitVec 3) (vcmd : BitVec 2) (voff : BitVec 4) :
    Statement (.scrollC color hcmd hoff vcmd voff) :=
  of_packet rfl (by rw [opcodeOfInstr]; decide)

theorem palLo (rgb : ColorEntries) : Statement (.palLo rgb) := of_packet rfl (by rw [opcodeOfInstr]; decide)

theorem palHi (rgb : ColorEntries) : Statement (.palHi rgb) := of_packet rfl (by rw [opcodeOfInstr]; decide)

theorem tileX (c0 c1 : Color) (rowf : BitVec 5) (colf : BitVec 6) (bm : Bitmap) :
    Statement (.tileX c0 c1 rowf colf bm) :=
  of_packet rfl (by rw [opcodeOfInstr]; decide)

theorem nop : Statement .nop := of_packet rfl (by rw [opcodeOfInstr]; decide)

end Laws.EncodesItsRow
end Sys2Proof
end

