-- ==== Sys2Proof/Tests/Slice0.lean ====
section
/-! SUPPORT. Tests of the model on small inputs, with expected results from spec/95_test_vectors.md, and for every statement
of Obligations.lean that has hypotheses a witness that meets them together, at the boundaries of their ranges. -/

namespace Sys2Proof.Tests
open Sys2Proof.Machine

/-! ### Helpers -/

/-- The next state of an outcome, if it has one. -/
def after : Host.Outcome State Fault Refusal → Option State
  | .next t => some t
  | .fault _ => none
  | .refused _ => none

/-- Pixel `(x, y)` of the live canvas of the next state. -/
def pix (o : Host.Outcome State Fault Refusal) (x y : Nat) : Option Byte := (after o).map fun t => pixelAt t.live x y

/-- An outcome whose next state passes a check. -/
theorem next_of_any {o : Host.Outcome State Fault Refusal} {p : State → Bool} (h : (after o).any p = true) :
    ∃ t, o = .next t ∧ p t = true := by
  cases o with
  | next t => exact ⟨t, rfl, h⟩
  | fault _ => simp [after] at h
  | refused _ => simp [after] at h

/-- An outcome that has a next state. -/
theorem next_of_some {o : Host.Outcome State Fault Refusal} (h : (after o).isSome = true) : ∃ t, o = .next t := by
  cases o with
  | next t => exact ⟨t, rfl⟩
  | fault _ => simp [after] at h
  | refused _ => simp [after] at h

/-- A step that ends without an error, and one that ends with one. -/
theorem ends_ok {o : Host.Outcome State Fault Refusal} (h : (after o).any (fun t => !failed t) = true) :
    ∃ t, o = .next t ∧ ∀ e, t.out ≠ some (.error e) := by
  obtain ⟨t, ht, hf⟩ := next_of_any h
  exact ⟨t, ht, fun e he => by simp [failed_iff.2 ⟨e, he⟩] at hf⟩

theorem ends_in_error {o : Host.Outcome State Fault Refusal} (h : (after o).any failed = true) :
    ∃ t, o = .next t ∧ ∃ e, t.out = some (.error e) := by
  obtain ⟨t, ht, hf⟩ := next_of_any h
  exact ⟨t, ht, failed_iff.1 hf⟩

/-- A buffer that is not the one of `State.reset`, of stride 304. -/
def b1 : Buffer := { handle := 1, pad := 4, mem := [] }

/-- The reset state about to take a record, with the host's answer. -/
def given (r : Record) (al : Alloc) : State := { State.reset with input := [.packet r al] }

/-- The reset state about to take an instruction's packet, with a buffer to grant. -/
def about (i : Instr) : State := given (encode i) (.grant b1)

/-- The packet of the given command and instruction bytes with data `05 00 ...`, as in section 2.1 of the vectors. -/
def raw (cmd ins : Byte) : Record := [cmd, ins, 0, 0, 5] ++ List.replicate 19 0

/-- A canvas of 0 with pixel `(0, 0)` 1, `(299, 0)` 2 and `(0, 215)` 3. -/
def corners : Buffer := { handle := 0, pad := 0, mem := [(0, 1), (299, 2), (64500, 3)] }

/-- That canvas, with a buffer granted. -/
def cornered : State := { State.reset with live := corners, alloc := .grant b1 }

/-- A tile bitmap of twelve equal rows. -/
def rows (v : BitVec 6) : Bitmap := Vector.replicate 12 v

/-- The state with the given offsets. -/
def offsetTo (hs : BitVec 3) (vs : BitVec 4) : State := { State.reset with hs := hs, vs := vs }

/-! ### WellFormed: each check refuses an ill-formed term (R99) -/

theorem test_wellFormed_scrollP_hoff : (Instr.scrollP 0 0 6 0 0).wellFormed = false := by decide
theorem test_wellFormed_scrollP_voff : (Instr.scrollP 0 0 0 0 12).wellFormed = false := by decide
theorem test_wellFormed_scrollC_hoff : (Instr.scrollC 0 0 7 0 0).wellFormed = false := by decide
theorem test_wellFormed_scrollC_voff : (Instr.scrollC 0 0 0 0 15).wellFormed = false := by decide
theorem test_wellFormed_limits : (Instr.scrollP 15 3 5 3 11).wellFormed = true ∧ (Instr.scrollC 15 3 5 3 11).wellFormed = true := by
  decide

/-! ### Decoding: words written out bit by bit from R92 to R99 -/

/-- MEMPRESET `xx001001 xx000001` with `color` 0011 and `repeat` 0000, noise above them (V20). -/
theorem test_decode_memPreset :
    decode ([0b11001001, 0b01000001, 0xAA, 0x55, 0b11110011, 0b00010000] ++ List.replicate 18 0xFF) = .ok (.memPreset 3 0) := by
  decide

/-- BORDERPRESET `xx001001 xx000010` with `color` 0111, `repeat` 0001 (V27). -/
theorem test_decode_borderPreset :
    decode ([0b00001001, 0b00000010, 0, 0, 0b00000111, 0b00000001] ++ List.replicate 18 0) = .ok (.borderPreset 7 1) := by
  decide

/-- TILE `xx001001 xx000110`, `c0` 0010, `c1` 0101, `rowf` 00001 under noise (V52), `colf` 000010 under noise (V53), `bm[0]`
100000 and `bm[11]` 000001. -/
theorem test_decode_tile :
    decode ([0b00001001, 0b00000110, 0, 0, 0b11110010, 0b00010101, 0b11100001, 0b11000010, 0b11100000] ++
      List.replicate 10 0b11000000 ++ [0b00000001, 0, 0, 0, 0]) = .ok (.tile 2 5 1 2 #v[32, 0, 0, 0, 0, 0, 0, 0, 0, 0, 0, 1]) := by
  decide

/-- TILEX `xx001001 xx100110` (V63). -/
theorem test_decode_tileX :
    decode ([0b00001001, 0b00100110, 0, 0, 12, 10, 2, 3] ++ List.replicate 12 0b00101010 ++ [0, 0, 0, 0]) =
      .ok (.tileX 12 10 2 3 (rows 0b101010)) := by
  decide

/-- SCROLLP `xx001001 xx010100`, `hcmd` 01, raw `hoff` 111 clamped to 5, `vcmd` 10, raw `voff` 1111 clamped to 11 (V88). -/
theorem test_decode_scrollP :
    decode ([0b00001001, 0b00010100, 0, 0, 0b00000100, 0b00010111, 0b00101111] ++ List.replicate 17 0) =
      .ok (.scrollP 4 1 5 2 11) := by
  decide

/-- SCROLLC `xx001001 xx011000`, `hcmd` 11, raw `hoff` 110 clamped to 5, `vcmd` 11, raw `voff` 1100 clamped to 11, the ignored
bit 3 of `d[1]` set. -/
theorem test_decode_scrollC :
    decode ([0b00001001, 0b00011000, 0, 0, 0, 0b00111110, 0b00111100] ++ List.replicate 17 0) = .ok (.scrollC 0 3 5 3 11) := by
  decide

/-- PALLO `xx001001 xx011110`: entry 0 `111100 000000` is 0xF00, entry 1 `010010 110100` is 0x4B4 (the table of 2.3). -/
theorem test_decode_palLo :
    decode ([0b00001001, 0b00011110, 0, 0, 0b00111100, 0b00000000, 0b00010010, 0b00110100] ++ List.replicate 16 0) =
      .ok (.palLo #v[0xF00, 0x4B4, 0, 0, 0, 0, 0, 0]) := by
  decide

/-- PALHI `xx001001 xx011111`: entry 7 `000000 001111` is 0x00F. -/
theorem test_decode_palHi :
    decode ([0b00001001, 0b00011111, 0, 0] ++ List.replicate 14 0 ++ [0b00000000, 0b00001111, 0, 0, 0, 0]) =
      .ok (.palHi #v[0, 0, 0, 0, 0, 0, 0, 0x00F]) := by
  decide

/-- NOP: commands 0x08 and 0, codes 5, 0 and 63 (V6, V8, V14 to V16). -/
theorem test_decode_nop :
    decode (raw 0b00001000 1) = .ok .nop ∧ decode (raw 0 0) = .ok .nop ∧ decode (raw 0b00001001 0b00000101) = .ok .nop ∧
    decode (raw 0b00001001 0) = .ok .nop ∧ decode (raw 0b00001001 0b00111111) = .ok .nop := by
  decide

/-- Every packet with one of the masked forms of the two bytes selects MEMPRESET (V9 to V13). -/
theorem test_decode_masked :
    decode (raw 0x49 0x01) = .ok (.memPreset 5 0) ∧ decode (raw 0xC9 0x01) = .ok (.memPreset 5 0) ∧
    decode (raw 0x89 0xC1) = .ok (.memPreset 5 0) ∧ decode (raw 0x09 0x81) = .ok (.memPreset 5 0) := by
  decide

/-- The bytes of the assembler for lines of programs P2 and P1 (R102). -/
theorem test_encode :
    encode (.palHi #v[0x888, 0x444, 0x123, 0xABC, 0, 0, 0, 0]) =
      [0x09, 0x1F, 0, 0, 0x22, 0x08, 0x11, 0x04, 0x04, 0x23, 0x2A, 0x3C, 0, 0, 0, 0, 0, 0, 0, 0, 0, 0, 0, 0] ∧
    encode (.tile 2 2 17 49 (rows 0)) = [0x09, 0x06, 0, 0, 2, 2, 0x11, 0x31] ++ List.replicate 16 0 ∧
    encode (.scrollP 7 0 5 0 11) = [0x09, 0x14, 0, 0, 7, 5, 0x0B] ++ List.replicate 17 0 ∧
    encode .nop = 0x09 :: List.replicate 23 0 := by
  decide

/-- Offsets above the limits are accepted by the assembler and clamped by the hardware (R102, V87). -/
theorem test_encode_clamped : decode (encode (.scrollC 0 0 7 0 15)) = .ok (.scrollC 0 0 5 0 11) := by decide

/-- The pseudo-instructions (R103). -/
theorem test_pseudo :
    encode (solidInstr 7 5 5) = [0x09, 0x06, 0, 0, 7, 7, 5, 5] ++ List.replicate 16 0 ∧
    encode (setOffInstr 5 11) = [0x09, 0x18, 0, 0, 0, 5, 11] ++ List.replicate 17 0 := by
  decide

/-- The decoder on words of the opcode table: bits 15..8 are packet byte 0 (R95). -/
theorem test_decodeTableWord :
    decodeTableWord 16 0x0901 = some (.memPreset 0 0) ∧ decodeTableWord 16 0xC9E6 = some (.tileX 0 0 0 0 (rows 0)) ∧
    decodeTableWord 16 0 = some .nop := by
  decide

/-! ### One step per instruction -/

/-- MEMPRESET 7, 0 makes the first and the last pixel 7 (E2). -/
theorem test_memPreset_fills :
    ∃ t, exec (.memPreset 7 0) cornered = .next t ∧ pixelAt t.live 0 0 = 7 ∧ pixelAt t.live 299 215 = 7 := by
  obtain ⟨b, e, -, -, h, -⟩ := rectFill_total (b := corners) (t := wholeCanvas) (by decide) 7
  refine ⟨setLive b cornered, ?_, by rw [setLive_live, h 0 (by decide)]; decide, by rw [setLive_live, h 299 (by decide)]; decide⟩
  rw [exec_memPreset, execMemPreset_zero, show cornered.live = corners from rfl, e, storeLive]

/-- MEMPRESET 7, 1 changes nothing (V21). -/
theorem test_memPreset_repeated : exec (.memPreset 7 1) cornered = .next cornered := by
  rw [exec_memPreset, execMemPreset_repeated (by decide)]

/-- Probes of V25, BORDERPRESET 7, 0: `(5, 12)` and `(294, 203)` on the border, `(6, 12)` and `(293, 203)` inside. -/
theorem test_borderPreset_probes :
    ∃ t, exec (.borderPreset 7 0) cornered = .next t ∧ pixelAt t.live 5 12 = 7 ∧ pixelAt t.live 6 12 = 0 ∧
      pixelAt t.live 293 203 = 0 ∧ pixelAt t.live 294 203 = 7 := by
  obtain ⟨b, e, -, -, h, -⟩ := fillBorder_total corners 7
  refine ⟨setLive b cornered, ?_, ?_⟩
  · rw [exec_borderPreset, execBorderPreset_zero, show cornered.live = corners from rfl, e, storeLive]
  · rw [setLive_live, h 5 (by decide) 12 (by decide), h 6 (by decide) 12 (by decide), h 293 (by decide) 203 (by decide),
      h 294 (by decide) 203 (by decide)]
    decide

/-- BORDERPRESET 7, 1 changes nothing (V27). -/
theorem test_borderPreset_repeated : exec (.borderPreset 7 1) cornered = .next cornered := by
  rw [exec_borderPreset, execBorderPreset_repeated (by decide)]

/-- Bit 5 is the leftmost pixel: row 0 of `TILE 2, 5, 0, 0, 0x20, 0 × 11` is 5, 2, 2, 2, 2, 2, row 1 all 2 (V54). -/
theorem test_tile_bit_order :
    let o := step (about (.tile 2 5 0 0 #v[0x20, 0, 0, 0, 0, 0, 0, 0, 0, 0, 0, 0]))
    pix o 0 0 = some 5 ∧ pix o 1 0 = some 2 ∧ pix o 5 0 = some 2 ∧ pix o 0 1 = some 2 ∧ pix o 6 0 = some 0 := by
  decide

/-- At offsets 2, 3 the tile lands at `x 2..7, y 3..14` (V47). -/
theorem test_tile_offset :
    let o := exec (.tile 0 1 0 0 (rows 0x3F)) (offsetTo 2 3)
    pix o 2 3 = some 1 ∧ pix o 7 14 = some 1 ∧ pix o 1 3 = some 0 ∧ pix o 8 14 = some 0 ∧ pix o 2 15 = some 0 := by
  decide

/-- XOR with the value before: `1 ^ 5 = 4` at the pixel of 1, `0 ^ 5 = 5` beside it (R203). -/
theorem test_tileX_xors :
    let o := exec (.tileX 0 5 0 0 (rows 0x3F)) cornered
    pix o 0 0 = some 4 ∧ pix o 1 0 = some 5 ∧ pix o 299 0 = some 2 := by
  decide

/-- Row field 18 is clipped (V64). -/
theorem test_tileX_clipped : exec (.tileX 0 5 18 0 (rows 0x3F)) cornered = .next cornered := by
  rw [exec_tileX, paintTile_clipped (by decide)]

/-- SCROLLC right by 6: columns 0..5 are the old columns 294..299, the others moved (E7). -/
theorem test_scrollC_right :
    let o := exec (.scrollC 0 1 0 0 0) cornered
    pix o 6 0 = some 1 ∧ pix o 5 0 = some 2 ∧ pix o 6 215 = some 3 ∧ pix o 0 0 = some 0 ∧
    (after o).map (·.events) = some [.acquire, .release 0] ∧ (after o).map (·.live.handle) = some 1 := by
  decide

/-- SCROLLC right and down: in the corner, `(5, 0)` takes the horizontal band's `O(299, 0)` = 2 (a torus would give
`O(299, 204)` = 0) and `(0, 11)` its `O(294, 11)` = 0 (the vertical band would give `O(0, 215)` = 3); the main copy moves
`(0, 0)` to `(6, 12)` (R239, as V95). -/
theorem test_scrollC_corner :
    let o := exec (.scrollC 0 1 0 1 0) cornered
    pix o 5 0 = some 2 ∧ pix o 0 11 = some 0 ∧ pix o 6 12 = some 1 := by
  decide

/-- SCROLLP 4 by the fine offset 1: column 0 is 4, the rest moved by 1, `HS` is 1 after (R242). -/
theorem test_scrollP_band :
    let o := exec (.scrollP 4 0 1 0 0) cornered
    pix o 0 0 = some 4 ∧ pix o 0 215 = some 4 ∧ pix o 1 0 = some 1 ∧ pix o 1 215 = some 3 ∧
    (after o).map (·.hs) = some 1 := by
  decide

/-- SCROLLP with zero net shift and a denying host changes the offsets only, with no request (V86). -/
theorem test_scrollP_zero :
    exec (.scrollP 4 3 2 3 4) { offsetTo 2 4 with alloc := .deny } = .next { offsetTo 2 4 with alloc := .deny } := by
  rw [exec_scrollP, scroll_zero (by decide)]; rfl

/-- PALLO: the decode table of 2.3, and that entries 8..15 stay (V30, V36). -/
theorem test_palLo :
    let t := after (step (about (.palLo #v[0xF00, 0x4B4, 0x56A, 0xA95, 0xFC0, 0x03F, 0x800, 0x060])))
    t.map (·.pal[0]) = some ⟨255, 0, 0⟩ ∧ t.map (·.pal[1]) = some ⟨68, 187, 68⟩ ∧ t.map (·.pal[7]) = some ⟨0, 102, 0⟩ ∧
    t.map (·.pal[8]) = some ⟨0, 0, 0⟩ ∧ t.map (·.pcf) = some true := by
  decide

/-- PALHI writes entries 8..15 (V31). -/
theorem test_palHi :
    let t := after (step (about (.palHi (Vector.replicate 8 0xFFF))))
    t.map (·.pal[7]) = some ⟨0, 0, 0⟩ ∧ t.map (·.pal[8]) = some ⟨255, 255, 255⟩ ∧ t.map (·.pal[15]) = some ⟨255, 255, 255⟩ := by
  decide

/-- NOP emits a frame of the unchanged state (V14). -/
theorem test_nop :
    (after (step (given (raw 0x09 0x05) .deny))).map (·.out) =
      some (some (.ok ⟨State.reset.live, State.reset.pal, false⟩)) := by
  decide

/-- The two errors put out their kind and no frame (V1, V102); status codes (R280). -/
theorem test_errors :
    (after (step (given (List.replicate 23 9) .deny))).map (·.out) = some (some (.error (.malformedPacket 23))) ∧
    (after (step (given (encode (.scrollC 0 1 0 0 0)) .deny))).map (·.out) =
      some (some (.error .bufferAllocationFailure)) ∧
    statusCode (.error (.malformedPacket 23)) = 1 ∧ statusCode (.error .bufferAllocationFailure) = 2 := by
  decide

/-- Under `PER_PACKET` the flag is 0 after a packet that loads no palette (V34), and an error leaves it (V35). -/
theorem test_perPacket :
    let s : State := { State.reset with pcf := true, params := { Config.defaultParams with pcfPolicy := .perPacket } }
    (after (step { s with input := [.packet (encode .nop) .deny] })).map (·.pcf) = some false ∧
    (after (step { s with input := [.packet [] .deny] })).map (·.pcf) = some true := by
  decide

/-- The clip test at its edges (V41 to V46, V48, V50). -/
theorem test_clip :
    tileClipped 17 0 (offsetTo 0 0) = false ∧ tileClipped 17 0 (offsetTo 0 1) = true ∧ tileClipped 18 0 (offsetTo 0 0) = true ∧
    tileClipped 0 49 (offsetTo 0 0) = false ∧ tileClipped 0 49 (offsetTo 1 0) = true ∧ tileClipped 0 50 (offsetTo 0 0) = true ∧
    tileClipped 16 48 (offsetTo 5 11) = false ∧ tileClipped 17 0 (offsetTo 0 11) = true := by
  decide

/-- Net shifts of the table of 2.5 (V76, V78, V79, V81, V84, V85, V88). -/
theorem test_netShift :
    hinc 2 0 5 = -11 ∧ hinc 2 5 0 = -1 ∧ hinc 1 0 0 = 6 ∧ vinc 1 0 11 = 1 ∧ vinc 2 0 11 = -23 ∧ hinc 1 5 0 = 11 ∧
    vinc 1 11 0 = 23 ∧ hinc 0 2 2 = 0 ∧ hinc 1 5 4 = 7 ∧ vinc 2 11 6 = -7 ∧ hinc 3 0 0 = 0 ∧ vinc 3 0 0 = 0 := by
  decide

/-- The fetch of a table word: the very next step runs it (R131). -/
theorem test_withFetchWord :
    (after (step (State.reset.withFetchWord 16 0x091E))).map (·.pcf) = some true ∧
    (after (step (State.reset.withFetchWord 16 0x0901))).isSome = true := by
  decide

/-! ### Witnesses: the hypotheses of every statement can be met

Each theorem is named after its statement and gives a concrete state and operands that meet all its hypotheses together, one
for each clause, at the boundaries of the ranges. -/

/-- A packet that selects each row, bits 7:6 of both bytes set in some: for PresetOperandsAreLowNibbles,
PaletteOperandsAreTwelveBitEntries, TileOperandsAreMaskedFields, ScrollOperandsAreClamped and the packet clauses of the
instruction statements. -/
theorem witness_selects :
    RecordSelects 0x0901 (raw 0xC9 0x41) ∧ RecordSelects 0x0902 (raw 0x49 0x82) ∧ RecordSelects 0x0906 (raw 0x09 0x06) ∧
    RecordSelects 0x0914 (raw 0x89 0xD4) ∧ RecordSelects 0x0918 (raw 0x09 0x18) ∧ RecordSelects 0x091E (raw 0x09 0x5E) ∧
    RecordSelects 0x091F (raw 0xC9 0xDF) ∧ RecordSelects 0x0926 (raw 0x09 0x26) := by
  unfold RecordSelects; decide

theorem witness_DecodeOfEncodeIsTheInstruction :
    (Instr.scrollP 15 3 5 3 11).WellFormed ∧ (Instr.tile 15 15 31 63 (rows 0x3F)).WellFormed ∧
    (Instr.palHi (Vector.replicate 8 0xFFF)).WellFormed := by
  decide

theorem witness_RecordLengthAloneDecidesParsing :
    (raw 9 1).length = 24 ∧ ([] : Record).length ≠ 24 ∧ ((raw 9 1).drop 1).length ≠ 24 ∧ (0 :: raw 9 1).length ≠ 24 := by
  decide

/-- Two different records that agree in every used bit (V17, with the upper bits of every data byte set too). -/
theorem witness_IgnoredBytesAndHighBitsDoNotMatter :
    let r := raw 0x09 0x01
    let r' : Record := [0xC9, 0x41, 0xAA, 0x55, 0xC5] ++ List.replicate 15 0xC0 ++ [0xFF, 0xEE, 0xDD, 0xCC]
    r ≠ r' ∧ r.length = 24 ∧ r'.length = 24 ∧ low6 (packetByte r 0) = low6 (packetByte r' 0) ∧
    low6 (packetByte r 1) = low6 (packetByte r' 1) ∧ ∀ i < 16, low6 (dataByte r i) = low6 (dataByte r' i) := by
  decide

theorem witness_OpcodeRowsExcludeEachOther :
    (∃ row ∈ opcodeTable, (0xC9E6 : BitVec 16) &&& row.mask = row.pattern) ∧
    ∀ row ∈ opcodeTable, (0x0905 : BitVec 16) &&& row.mask ≠ row.pattern := by
  decide

theorem witness_TileOperandsAreMaskedFields : (5 : Nat) < 6 := by decide

/-- The last rectangle that fits, an empty one at the far corner, and the first that does not, on each axis. -/
theorem witness_RectFillWritesItsRectangle :
    rectFits ⟨294, 204, 6, 12⟩ = true ∧ rectFits ⟨300, 216, 0, 0⟩ = true ∧ rectFits ⟨295, 204, 6, 12⟩ = false ∧
    rectFits ⟨294, 205, 6, 12⟩ = false ∧ rectHas ⟨294, 204, 6, 12⟩ 299 215 = true ∧
    offsetInRect 300 ⟨294, 204, 6, 12⟩ 0 = false := by
  decide

theorem witness_RectCopyMovesItsRectangle :
    (0 + 6 ≤ 300 ∧ 0 + 216 ≤ 216 ∧ 294 + 6 ≤ 300 ∧ 0 + 216 ≤ 216) ∧ (5 < 6 ∧ 215 < 216) ∧ 300 < 295 + 6 := by decide

theorem witness_PixelsAreDistinctBytesOfTheBuffer : 299 < 300 ∧ 215 < 216 ∧ pixelOffset b1.stride 299 215 = 215 * 304 + 299 := by
  decide

theorem corners_canonical : corners.canonical := by
  refine ⟨⟨?_, ?_⟩, ?_⟩ <;> decide

theorem corners_indexed : corners.indexed := by unfold Buffer.indexed; decide

theorem b1_canonical : b1.canonical := ⟨⟨List.Pairwise.nil, by simp [b1]⟩, by simp [b1]⟩

theorem witness_RectOperationsKeepCanonicalForm :
    corners.canonical ∧ b1.canonical ∧ (updateRect corners ⟨0, 0, 6, 12⟩ fun _ _ p => p ^^^ 5).isSome = true ∧
    (rectCopy b1 corners 6 0 ⟨0, 0, 294, 216⟩).isSome = true :=
  ⟨corners_canonical, b1_canonical, by decide, by decide⟩

/-- A record whose instruction answers a next state without an error, one with an error, one that is refused. -/
theorem witness_StepRunsTheDecodedInstruction :
    decode (encode (.scrollC 0 1 0 0 0)) = .ok (.scrollC 0 1 0 0 0) ∧
    (∃ t, exec .nop State.reset = .next t ∧ ∀ e, t.out ≠ some (.error e)) ∧
    (∃ t, exec (.scrollC 0 1 0 0 0) State.reset = .next t ∧ ∃ e, t.out = some (.error e)) ∧
    exec (.scrollC 0 1 0 0 0) { State.reset with alloc := .grant { b1 with handle := 0 } } = .refused .heldBufferGranted :=
  ⟨by decide, ends_ok (by decide), ends_in_error (by decide), by rw [exec_scrollC, scroll_held (b := { b1 with handle := 0 }) (by decide) rfl rfl]⟩

theorem witness_WrongLengthIsMalformedPacket :
    (given ((raw 9 1).drop 1) .deny).input = .packet ((raw 9 1).drop 1) .deny :: [] ∧ ((raw 9 1).drop 1).length ≠ 24 := by
  decide

/-- A foreign command and an unrecognised code, next to the recognised ones. -/
theorem witness_UnrecognisedPacketsAreNoOps :
    (raw 0x08 1).length = 24 ∧ (packetByte (raw 0x08 1) 0).toNat &&& 0x3F ≠ 0x09 ∧
    (packetByte (raw 0x09 5) 1).toNat &&& 0x3F ∉ [1, 2, 6, 20, 24, 30, 31, 38] ∧
    (packetByte (raw 0x09 0xFF) 1).toNat &&& 0x3F ∉ [1, 2, 6, 20, 24, 30, 31, 38] := by
  decide

/-- A step on a record that ends in `OK`, with a palette load. -/
theorem step_ok : ∃ t, step (about (.palLo (Vector.replicate 8 0xFFF))) = .next t ∧ ∀ e, t.out ≠ some (.error e) :=
  ends_ok (by decide)

/-- A step on a record that ends in an error, a denied scroll. -/
theorem step_error :
    ∃ t, step (given (encode (.scrollC 0 1 0 0 0)) .deny) = .next t ∧ ∃ e, t.out = some (.error e) :=
  ends_in_error (by decide)

theorem witness_StepEmitsFrameOrLeavesStateUnchanged :
    (∃ t, step (about (.palLo (Vector.replicate 8 0xFFF))) = .next t) ∧
    ∃ t, step (given (encode (.scrollC 0 1 0 0 0)) .deny) = .next t :=
  ⟨step_ok.imp fun _ h => h.1, step_error.imp fun _ h => h.1⟩

/-- A granted buffer not held, and a denying host. -/
theorem witness_EveryPacketEndsInOkOrAllocationFailure :
    (encode .nop).length = 24 ∧ grantsFresh (.grant b1) (about .nop) ∧ grantsFresh .deny (given (encode .nop) .deny) :=
  ⟨rfl, by show (1 : Nat) ≠ 0; decide, trivial⟩

theorem witness_StepNeverFaults : (about .nop).hostDutiful ∧ State.reset.hostDutiful :=
  ⟨by show (1 : Nat) ≠ 0; decide, trivial⟩

/-- With nothing pending, and with a record pending. -/
theorem witness_StepTakesOneHostAction :
    step State.reset = .next State.reset ∧ ∃ t, step (about (.palLo (Vector.replicate 8 0xFFF))) = .next t :=
  ⟨rfl, step_ok.imp fun _ h => h.1⟩

/-- Both policies; the two endings under `STICKY` are `step_ok` and `step_error`. -/
theorem witness_PaletteFlagFollowsThePolicy :
    (about (.palLo (Vector.replicate 8 0xFFF))).params.pcfPolicy = .sticky ∧
    ∃ t, step { about .nop with params := { Config.defaultParams with pcfPolicy := .perPacket } } = .next t ∧
      ∀ e, t.out ≠ some (.error e) :=
  ⟨rfl, ends_ok (by decide)⟩

/-- A granted scroll and an instruction that is no scroll; the ending with an error is `step_error`. -/
theorem witness_OnlyScrollsMoveTheOffsets :
    (∃ t, step (about (.scrollC 0 0 5 0 11)) = .next t ∧ ∀ e, t.out ≠ some (.error e)) ∧
    ∃ t, step (about .nop) = .next t ∧ ∀ e, t.out ≠ some (.error e) :=
  ⟨ends_ok (by decide), ends_ok (by decide)⟩

/-- A shifting scroll, granted and denied, and one that does not shift (V86). -/
theorem witness_OnlyShiftingScrollsRequestBuffers :
    (shifts (.scrollC 0 0 5 0 11) (about (.scrollC 0 0 5 0 11)) ∧ ∃ t, step (about (.scrollC 0 0 5 0 11)) = .next t) ∧
    (shifts (.scrollC 0 1 0 0 0) (given (encode (.scrollC 0 1 0 0 0)) .deny) ∧
      ∃ t, step (given (encode (.scrollC 0 1 0 0 0)) .deny) = .next t) ∧
    ¬ shifts (.scrollC 0 3 0 3 0) (about (.scrollC 0 3 0 3 0)) ∧ ∃ t, step (about (.scrollC 0 3 0 3 0)) = .next t := by
  refine ⟨⟨⟨_, _, _, _, rfl, by decide⟩, next_of_some (by decide)⟩, ⟨⟨_, _, _, _, rfl, by decide⟩, next_of_some (by decide)⟩,
    ?_, next_of_some (by decide)⟩
  rintro ⟨_, _, _, _, h, hz⟩
  cases h
  exact hz (by decide)

/-- A palette load, a scroll, a tile and the no-op. -/
theorem witness_InstructionsLeaveTheRestUntouched :
    (∃ t, exec (.palHi (Vector.replicate 8 1)) State.reset = .next t) ∧ (∃ t, exec (.scrollP 1 3 5 3 11) (offsetTo 5 11) = .next t) ∧
    (∃ t, exec (.tileX 0 5 18 0 (rows 0x3F)) cornered = .next t) ∧ (∃ t, exec .nop cornered = .next t) ∧ offCanvas b1 300 :=
  ⟨next_of_some (by decide), next_of_some (by decide), next_of_some (by decide), next_of_some (by decide),
    by unfold offCanvas; decide⟩

/-- The smallest and the largest repeat that skip. -/
theorem witness_MemPresetFillsTheCanvas :
    RecordSelects 0x0901 (raw 0xC9 0x41) ∧ (1 : BitVec 4) ≠ 0 ∧ (15 : BitVec 4) ≠ 0 ∧ offCanvas b1 (215 * 304 + 300) := by
  unfold RecordSelects offCanvas; decide

/-- The corners of the interior and the border pixels next to them. -/
theorem witness_BorderPresetFillsTheBorder :
    RecordSelects 0x0902 (raw 0x49 0x82) ∧ (1 : BitVec 4) ≠ 0 ∧ onBorder 5 12 ∧ onBorder 6 11 ∧ onBorder 294 203 ∧
    onBorder 293 204 ∧ ¬ onBorder 6 12 ∧ ¬ onBorder 293 203 := by
  unfold RecordSelects; decide

theorem witness_PalLoLoadsTheLowEntries : RecordSelects 0x091E (raw 0x09 0x5E) := witness_selects.2.2.2.2.2.1
theorem witness_PalHiLoadsTheHighEntries : RecordSelects 0x091F (raw 0xC9 0xDF) := witness_selects.2.2.2.2.2.2.1

/-- Clipped on either axis (V42, V45); the two sides of the test are `test_clip`. -/
theorem witness_ClippedTilesChangeNothing :
    tileClipped 17 0 (offsetTo 0 1) = true ∧ tileClipped 0 49 (offsetTo 1 0) = true := by
  decide

/-- The last painted row and column at offset 0, and at the largest offsets (V41, V44, V48). -/
theorem witness_TilePaintsItsPixels :
    RecordSelects 0x0906 (raw 0x09 0x06) ∧
    ((17 : BitVec 5).toNat * 12 + (offsetTo 0 0).vs.toNat ≤ 204 ∧ (49 : BitVec 6).toNat * 6 + (offsetTo 0 0).hs.toNat ≤ 294) ∧
    (16 : BitVec 5).toNat * 12 + (offsetTo 5 11).vs.toNat ≤ 204 ∧ (48 : BitVec 6).toNat * 6 + (offsetTo 5 11).hs.toNat ≤ 294 := by
  unfold RecordSelects; decide

theorem witness_TileXXorsItsPixels :
    RecordSelects 0x0926 (raw 0x09 0x26) ∧ (17 : BitVec 5).toNat * 12 + (offsetTo 0 0).vs.toNat ≤ 204 ∧
    (49 : BitVec 6).toNat * 6 + (offsetTo 0 0).hs.toNat ≤ 294 := by
  unfold RecordSelects; decide

theorem witness_PaintedTilesStayInTheCanvas :
    tileClipped 17 49 (offsetTo 0 0) = false ∧ tileClipped 16 48 (offsetTo 5 11) = false := by decide

theorem witness_ClipTableOfTheOffsets :
    ((offsetTo 0 0).hs.toNat ≤ 5 ∧ (offsetTo 0 0).vs.toNat ≤ 11) ∧ (offsetTo 5 11).hs.toNat ≤ 5 ∧ (offsetTo 5 11).vs.toNat ≤ 11 := by
  decide

theorem witness_EqualXorTilesCancel : cornered.live.canonical := corners_canonical

theorem witness_NetShiftIsBounded : (5 : BitVec 3).toNat ≤ 5 ∧ (11 : BitVec 4).toNat ≤ 11 ∧ (0 : BitVec 3).toNat ≤ 5 := by decide

/-- No direction and equal offsets (V85), and direction code 3 (V86). -/
theorem witness_ZeroShiftScrollsChangeOnlyTheOffsets :
    (hinc 0 2 (offsetTo 2 4).hs = 0 ∧ vinc 0 4 (offsetTo 2 4).vs = 0) ∧ hinc 3 0 State.reset.hs = 0 ∧ vinc 3 0 State.reset.vs = 0 := by
  decide

theorem witness_DeniedScrollsFailWithoutEffect :
    decode (encode (.scrollC 0 1 0 0 0)) = .ok (.scrollC 0 1 0 0 0) ∧ shifts (.scrollC 0 1 0 0 0) (given (encode (.scrollC 0 1 0 0 0)) .deny) :=
  ⟨by decide, _, _, _, _, rfl, by decide⟩

/-- A denied scroll and the same packet again, granted (program P3, lines 5 and 6). -/
theorem witness_RetriedScrollsShiftTheSame :
    let r := encode (.scrollC 0 2 0 0 0)
    let s : State := { State.reset with input := [.packet r .deny, .packet r (.grant b1)] }
    s.input = .packet r .deny :: .packet r (.grant b1) :: [] ∧ decode r = .ok (.scrollC 0 2 0 0 0) ∧
    shifts (.scrollC 0 2 0 0 0) s ∧ b1.handle ≠ s.live.handle :=
  ⟨rfl, by decide, ⟨_, _, _, _, rfl, by decide⟩, by decide⟩

/-- A shift on one axis only is a nonzero net shift. -/
theorem witness_ScrollPShiftsAndFillsFlat :
    RecordSelects 0x0914 (raw 0x89 0xD4) ∧ ¬ (hinc 0 0 cornered.hs = 0 ∧ vinc 2 0 cornered.vs = 0) ∧
    cornered.alloc = .grant b1 ∧ b1.handle ≠ cornered.live.handle ∧ offCanvas b1 300 ∧ ¬ offCanvas b1 304 := by
  unfold RecordSelects offCanvas; decide

theorem witness_ScrollCShiftsAndWraps :
    RecordSelects 0x0918 (raw 0x09 0x18) ∧ ¬ (hinc 0 1 cornered.hs = 0 ∧ vinc 0 0 cornered.vs = 0) ∧
    cornered.alloc = .grant b1 ∧ b1.handle ≠ cornered.live.handle ∧ offCanvas b1 300 ∧ ¬ offCanvas b1 304 := by
  unfold RecordSelects offCanvas; decide

/-- The last column of the left band, right scroll; the first of the right band, left scroll; both with a vertical shift. -/
theorem witness_CornersTakeTheHorizontalBand :
    (0 < hinc 1 0 cornered.hs ∧ ((5 : Nat) : Int) < hinc 1 0 cornered.hs) ∧
    (hinc 2 0 cornered.hs < 0 ∧ 300 + hinc 2 0 cornered.hs ≤ ((294 : Nat) : Int)) ∧
    (∃ t, exec (.scrollP 4 1 0 1 0) cornered = .next t) ∧ (∃ t, exec (.scrollC 4 1 0 1 0) cornered = .next t) ∧
    (∃ t, exec (.scrollP 4 2 0 2 0) cornered = .next t) ∧ (∃ t, exec (.scrollC 4 2 0 2 0) cornered = .next t) ∧
    cornered.alloc ≠ .deny :=
  ⟨by decide, by decide, next_of_some (by decide), next_of_some (by decide),
    next_of_some (by decide), next_of_some (by decide), by decide⟩

/-- A scroll on each axis alone, and right by 6 then left by 6. -/
theorem witness_SingleAxisCopyScrollRotates :
    (∃ t u, exec (.scrollC 0 1 0 0 0) cornered = .next t ∧
      exec (.scrollC 0 2 t.hs 0 t.vs) { t with alloc := .grant { b1 with handle := 2 } } = .next u) ∧
    (∃ t, exec (.scrollC 0 0 0 2 0) cornered = .next t) ∧ cornered.alloc ≠ .deny ∧
    (vinc 0 0 cornered.vs = 0 ∧ hinc 1 0 cornered.hs ≠ 0) ∧ hinc 0 0 cornered.hs = 0 ∧ vinc 2 0 cornered.vs ≠ 0 := by
  refine ⟨?_, next_of_some (by decide), by decide, by decide, by decide, by decide⟩
  obtain ⟨t, ht, h⟩ := next_of_any (o := exec (.scrollC 0 1 0 0 0) cornered)
    (p := fun t => (after (exec (.scrollC 0 2 t.hs 0 t.vs) { t with alloc := .grant { b1 with handle := 2 } })).isSome) (by decide)
  obtain ⟨u, hu⟩ := next_of_some h
  exact ⟨t, u, ht, hu⟩

theorem witness_OffsetScrollsKeepTilesAligned :
    (∃ t, exec (.scrollP 4 0 5 3 11) cornered = .next t) ∧ (∃ t, exec (.scrollC 4 3 5 0 11) cornered = .next t) ∧
    cornered.alloc ≠ .deny ∧ ((5 : Nat) : Int) - (0 : Nat) = ((5 : BitVec 3).toNat : Int) - cornered.hs.toNat ∧
    ((11 : Nat) : Int) - (0 : Nat) = ((11 : BitVec 4).toNat : Int) - cornered.vs.toNat :=
  ⟨next_of_some (by decide), next_of_some (by decide), by decide, by decide, by decide⟩

theorem witness_EveryOffsetPairIsOneScrollAway :
    b1.handle ≠ (about (setOffInstr 5 11)).live.handle ∧
    (about (setOffInstr 5 11)).input = .packet (encode (setOffInstr 5 11)) (.grant b1) :: [] := by
  decide

theorem witness_GrantOfTheHeldBufferHasNoMove :
    let s : State := { State.reset with alloc := .grant { b1 with handle := 0 } }
    ¬ (hinc 1 0 s.hs = 0 ∧ vinc 0 0 s.vs = 0) ∧ s.alloc = .grant { b1 with handle := 0 } ∧ ({ b1 with handle := 0 } : Buffer).handle = s.live.handle := by
  decide

theorem witness_HostResetWritesEveryElement :
    ({ cornered with input := [.reset b1] } : State).input = .reset b1 :: [] ∧ offCanvas b1 303 := by
  unfold offCanvas; decide

/-- An initial buffer with other pixels, the handle and the padding of the reset state's. -/
theorem witness_ResetStateIsAHostReset :
    corners.canonical ∧ corners.handle = State.reset.live.handle ∧ corners.pad = State.reset.live.pad :=
  ⟨corners_canonical, rfl, rfl⟩

/-- A state with pixels, offsets at their limits and a reset pending, that meets the invariant and steps. -/
theorem witness_StepKeepsTheInvariant :
    ({ cornered with hs := 5, vs := 11, input := [.packet (encode .nop) (.grant b1), .reset b1] } : State).Inv ∧
    ∃ t, step { cornered with hs := 5, vs := 11, input := [.packet (encode .nop) (.grant b1), .reset b1] } = .next t := by
  refine ⟨⟨corners_canonical, corners_indexed, by decide, by decide, rfl, rfl, ?_⟩, next_of_some (by decide)⟩
  intro act h
  simp only [List.mem_cons, List.not_mem_nil, or_false] at h
  rcases h with rfl | rfl
  · exact b1_canonical
  · exact b1_canonical

theorem witness_PaletteChannelsStayMultiplesOfSeventeen :
    paletteScaled (about (.palLo (Vector.replicate 8 0xFFF))).params.initPalette ∧
    paletteScaled (about (.palLo (Vector.replicate 8 0xFFF))).pal := by
  decide

/-- The reset state about to take a record, its one coloured pixel in a buffer of stride 300, and the same in a buffer of
stride 304. -/
def narrow (r : Record) (al : Alloc) : State := { given r al with live := ⟨0, 0, [(300, 1)]⟩ }
def wide (r : Record) (al : Alloc) : State := { given r al with live := ⟨2, 4, [(304, 1)]⟩ }

theorem narrow_wide (r : Record) (al al' : Alloc) : SamePicture (narrow r al) (wide r al') := by
  refine ⟨fun x hx y hy => ?_, rfl, rfl, rfl, rfl, rfl⟩
  rw [fullWidth] at hx
  show (if 300 = y * 300 + x then (1 : Byte) else 0) = if 304 = y * 304 + x then (1 : Byte) else 0
  exact if_congr (by omega) rfl rfl

/-- The two states, given the same record and answers of the same kind: a scroll granted a buffer, which ends in a frame
with requests; the same scroll denied; a short record. -/
theorem witness_ResultsDoNotDependOnTheBuffers :
    let scr := encode (.scrollC 0 1 0 0 0)
    (∀ r al al', SamePicture (narrow r al) (wide r al')) ∧
    sameKind (.grant b1) (.grant { b1 with handle := 3 }) ∧ sameKind .deny .deny ∧
    grantsFresh (.grant { b1 with handle := 3 }) (wide scr .deny) ∧ grantsFresh .deny (wide scr .deny) ∧
    (∃ t, step (narrow scr (.grant b1)) = .next t ∧ (!failed t && t.events == [.acquire, .release 0]) = true) ∧
    (∃ t, step (narrow scr .deny) = .next t ∧ (t.out == some (.error .bufferAllocationFailure)) = true) ∧
    ∃ t, step (narrow [] .deny) = .next t ∧ (t.out == some (.error (.malformedPacket 0))) = true :=
  ⟨narrow_wide, trivial, trivial, by show (3 : Nat) ≠ 2; decide, trivial,
    next_of_any (p := fun t => !failed t && t.events == [.acquire, .release 0]) (by decide),
    next_of_any (p := fun t => t.out == some (.error .bufferAllocationFailure)) (by decide),
    next_of_any (p := fun t => t.out == some (.error (.malformedPacket 0))) (by decide)⟩

end Sys2Proof.Tests
end

section
/-! The invariants of the state (spec/10_state.md): what a step can do, said once as an inversion; the frame of every
instruction (R42); the invariant of R34, R37, R43 and R249; the palette's multiples of 17 (R36). -/

namespace Sys2Proof.Machine

/-! ### The inversion of a step -/

/-- Everything a step can do when it answers a next state. -/
inductive StepEffect (s : State) : State → Prop where
  /-- Nothing pending: the state is held (R292). -/
  | idle (hi : s.input = []) : StepEffect s s
  /-- A reset with the buffer `b0` (R320). -/
  | reset {b0 b : Buffer} {rest : List HostAction} (hi : s.input = .reset b0 :: rest)
      (hb : rectFill b0 wholeCanvas s.params.initPixel = some b) :
      StepEffect s { s with
        input := rest, live := b, pal := s.params.initPalette, hs := 0, vs := 0, pcf := false,
        phase := .idle, pending := none, out := none, events := [] }
  /-- A record that ends in an error (R285). -/
  | failed {r : Record} {al : Alloc} {rest : List HostAction} {e : ErrorKind} {ev : List HostRequest}
      (hi : s.input = .packet r al :: rest) :
      StepEffect s { beginStep al rest s with out := some (.error e), events := ev }
  /-- A record whose instruction completes, and the frame (R137). -/
  | completed {r : Record} {al : Alloc} {rest : List HostAction} {u : State} (hi : s.input = .packet r al :: rest)
      (hu : ExecEffect (decodePacket r) (policyClear (beginStep al rest s)) u) : StepEffect s (emit u)

theorem step_next {s t : State} (h : step s = .next t) : StepEffect s t := by
  cases hi : s.input with
  | nil =>
    rw [step_idle hi, Host.Outcome.next.injEq] at h
    exact h ▸ .idle hi
  | cons act rest =>
    cases act with
    | reset b0 =>
      obtain ⟨b, e, hb⟩ := hostReset_total b0 { s with input := rest }
      rw [step_reset hi, e, Host.Outcome.next.injEq] at h
      exact h ▸ .reset hi hb
    | packet r al =>
      rcases step_record_cases hi with ⟨-, e⟩ | ⟨-, u, hu, -, e⟩ | ⟨-, -, -, e⟩ | ⟨-, -, -, e⟩ <;>
        simp only [e, Host.Outcome.next.injEq, reduceCtorEq] at h
      · exact h ▸ .failed hi
      · exact h ▸ .completed hi hu
      · exact h ▸ .failed hi

/-! ### The offsets an instruction can load (R99) -/

theorem offsetsInRange_clamp (v w : Byte) : offsetsInRange (clampH v) (clampV w) = true := by
  simp [offsetsInRange, clampH_toNat, clampV_toNat]

theorem decodePacket_wellFormed (r : Record) : (decodePacket r).WellFormed := by
  unfold decodePacket
  cases opcodeOf (decodeWord r) with
  | scrollP | scrollC => exact offsetsInRange_clamp _ _
  | _ => rfl

theorem scrollOperands_inRange {i : Instr} (hw : i.WellFormed) {hcmd hoff vcmd voff}
    (ho : scrollOperands i = some (hcmd, hoff, vcmd, voff)) : hoff.toNat ≤ hsMax ∧ voff.toNat ≤ vsMax := by
  cases i with
  | scrollP | scrollC =>
    cases ho
    simpa [Instr.WellFormed, Instr.wellFormed, offsetsInRange] using hw
  | _ => cases ho

/-! ### The invariant -/

/-- The invariant reads the live buffer, the offsets, the controller and the pending actions only. -/
theorem State.Inv.congr {s t : State} (h : s.Inv) (hlive : t.live = s.live) (hhs : t.hs = s.hs) (hvs : t.vs = s.vs)
    (hphase : t.phase = s.phase) (hpending : t.pending = s.pending) (hinput : t.input ⊆ s.input) : t.Inv where
  liveCanonical := hlive ▸ h.liveCanonical
  liveIndexed := hlive ▸ h.liveIndexed
  hsRange := hhs ▸ h.hsRange
  vsRange := hvs ▸ h.vsRange
  idle := hphase ▸ h.idle
  oneBuffer := hpending ▸ h.oneBuffer
  inputCanonical act hact := h.inputCanonical act (hinput hact)

/-- Taking the record from the host keeps the invariant. -/
theorem State.Inv.of_beginStep {s : State} (h : s.Inv) {r : Record} {al : Alloc} {rest : List HostAction}
    (hi : s.input = .packet r al :: rest) : (beginStep al rest s).Inv :=
  h.congr rfl rfl rfl rfl rfl (hi ▸ List.subset_cons_self _ _)

/-- A canvas filled as a whole holds the colour alone, whatever it held before. -/
theorem indexed_rectFill_wholeCanvas {b0 b : Buffer} {c : Color} (hb : rectFill b0 wholeCanvas c = some b)
    (h0 : b0.canonical) : b.indexed := by
  refine indexed_of_pixels (canonical_updateRect hb h0) fun x hx y hy => ?_
  have hin : rectHas wholeCanvas x y = true := rectHas_iff.2 (by simpa [wholeCanvas] using ⟨hx, hy⟩)
  rw [pixelAt_rectFill hb hx, if_pos hin]
  exact pixelByte_lt c

/-- A well-formed instruction keeps the invariant, if the host's answer grants a canonical buffer. -/
theorem ExecEffect.keeps_inv {i : Instr} {s t : State} (h : ExecEffect i s t) (hw : i.WellFormed) (hs : s.Inv)
    (hgrant : ∀ b, s.alloc = .grant b → b.canonical) : t.Inv := by
  cases h with
  | unchanged => exact hs
  | pixels _ _ _ hb =>
    exact ⟨hb.canonical hs.liveCanonical, hb.indexed hs.liveCanonical hs.liveIndexed, hs.hsRange, hs.vsRange, hs.idle,
      hs.oneBuffer, hs.inputCanonical⟩
  | palette => exact hs.congr rfl rfl rfl rfl rfl (List.Subset.refl _)
  | offsets _ ho =>
    obtain ⟨hh, hv⟩ := scrollOperands_inRange hw ho
    exact ⟨hs.liveCanonical, hs.liveIndexed, hh, hv, hs.idle, hs.oneBuffer, hs.inputCanonical⟩
  | denied => exact ⟨hs.liveCanonical, hs.liveIndexed, hs.hsRange, hs.vsRange, rfl, rfl, hs.inputCanonical⟩
  | @swapped _ _ _ _ _ b n _ ho _ ha _ _ _ hx hc =>
    obtain ⟨hh, hv⟩ := scrollOperands_inRange hw ho
    have hn : n.canonical := hc (hgrant b ha) hs.liveCanonical
    have hidx : n.indexed := indexed_of_pixels hn fun x hxw y hyh => by
      rw [hx x hxw y hyh]
      exact scrolledPixel_lt hs.liveCanonical hs.liveIndexed _ _ _ x y
    exact ⟨hn, hidx, hh, hv, rfl, rfl, hs.inputCanonical⟩

/-- Settles O52, by the cases of a step: an instruction keeps the invariant, an error keeps the state, a reset fills the
canvas with one colour. -/
theorem stepKeepsTheInvariant : Obligations.StepKeepsTheInvariant := by
  intro s t hs hstep
  cases step_next hstep with
  | idle => exact hs
  | reset hi hb =>
    have h0 := hs.inputCanonical (.reset _) (hi ▸ List.mem_cons_self)
    exact ⟨canonical_updateRect hb h0, indexed_rectFill_wholeCanvas hb h0, Nat.zero_le _, Nat.zero_le _, rfl, rfl,
      fun act hact => hs.inputCanonical act (hi ▸ List.mem_cons_of_mem _ hact)⟩
  | failed hi => exact (hs.of_beginStep hi).congr rfl rfl rfl rfl rfl (List.Subset.refl _)
  | @completed r al rest u hi hu =>
    have hal : (HostAction.packet r al).canonical := hs.inputCanonical _ (hi ▸ List.mem_cons_self)
    have hcleared : (policyClear (beginStep al rest s)).Inv :=
      (hs.of_beginStep hi).congr (by simp) (by simp) (by simp) (by simp) (by simp) (by simp)
    have hu' : u.Inv := hu.keeps_inv (decodePacket_wellFormed r) hcleared fun b hb => by
      obtain rfl : al = .grant b := by simpa using hb
      exact hal
    exact hu'.congr rfl rfl rfl rfl rfl (List.Subset.refl _)

/-! ### The frame of an instruction (R42) -/

/-- Only a palette load changes the palette or the flag. -/
theorem ExecEffect.pal_pcf {i : Instr} {s t : State} (h : ExecEffect i s t) (hi : isPaletteLoad i = false) :
    t.pal = s.pal ∧ t.pcf = s.pcf := by
  cases h with
  | palette hl => simp [hi] at hl
  | _ => exact ⟨rfl, rfl⟩

/-- An instruction that is no scroll changes, beside the palette and the flag, pixels of the live buffer only. -/
theorem ExecEffect.frame_of_no_scroll {i : Instr} {s t : State} (h : ExecEffect i s t) (hi : scrollOperands i = none) :
    t.hs = s.hs ∧ t.vs = s.vs ∧ t.phase = s.phase ∧ t.pending = s.pending ∧ t.out = s.out ∧ t.events = s.events ∧
      t.live.handle = s.live.handle ∧ t.live.pad = s.live.pad ∧
      ∀ a, offCanvas s.live a → readByte t.live.mem a = readByte s.live.mem a := by
  cases h with
  | unchanged | palette => simp
  | pixels _ _ _ hb => exact ⟨rfl, rfl, rfl, rfl, rfl, rfl, hb.handle, hb.pad, hb.bytes⟩
  | offsets _ ho | swapped _ ho => simp [hi] at ho
  | denied _ hs =>
    obtain ⟨_, _, _, _, ho, -⟩ := hs
    simp [hi] at ho

/-- Palette loads and the no-op keep the live buffer. -/
theorem ExecEffect.live_eq {i : Instr} {s t : State} (h : ExecEffect i s t) (hi : isPaletteLoad i = true ∨ i = .nop) :
    t.live = s.live := by
  cases h with
  | pixels hl _ hn => simp [hl, hn] at hi
  | swapped hl ho =>
    obtain rfl : i = .nop := by simpa [hl] using hi
    cases ho
  | _ => rfl

/-- Settles O25, from the inversion of `exec`. -/
theorem instructionsLeaveTheRestUntouched : Obligations.InstructionsLeaveTheRestUntouched := by
  intro i s t h
  have he := exec_next h
  obtain ⟨hparams, hinput, halloc⟩ := he.const
  exact ⟨hparams, hinput, halloc, he.pal_pcf, he.frame_of_no_scroll, he.live_eq⟩

/-! ### The channels of the palette (R36) -/

/-- Every instruction keeps the channels multiples of 17: a palette load scales what it loads. -/
theorem ExecEffect.keeps_paletteScaled {i : Instr} {s t : State} (h : ExecEffect i s t) (hs : paletteScaled s.pal) :
    paletteScaled t.pal := by
  cases h with
  | palette _ _ hp => exact hp hs
  | _ => exact hs

/-- Settles O54, by the cases of a step. -/
theorem paletteChannelsStayMultiplesOfSeventeen : Obligations.PaletteChannelsStayMultiplesOfSeventeen := by
  refine ⟨fun s t hinit hpal hstep => ?_, by decide, by decide⟩
  cases step_next hstep with
  | idle | failed => exact ⟨hinit, hpal⟩
  | reset => exact ⟨hinit, hinit⟩
  | completed _ hu =>
    obtain ⟨hparams, -, -⟩ := hu.const
    exact ⟨by simpa [hparams] using hinit, hu.keeps_paletteScaled (by simpa using hpal)⟩

end Sys2Proof.Machine
end

section
/-! The canvas as bytes (spec/20_memory.md): where a pixel is (R61, R62), what the rectangle primitives write and when
they answer no buffer (R63, R70, R71), and that the fault this would be is reached by no step. -/

namespace Sys2Proof.Machine

/-! ### The place of a pixel (R61) -/

/-- Two offsets within rows of the stride are equal only for the same column and row. -/
theorem pixelOffset_inj {stride x y x' y' : Nat} (hx : x < stride) (hx' : x' < stride)
    (h : pixelOffset stride x y = pixelOffset stride x' y') : x = x' ∧ y = y' := by
  have hmod := congrArg (· % stride) h
  have hdiv := congrArg (· / stride) h
  simp only [pixelOffset_mod _ hx, pixelOffset_mod _ hx', pixelOffset_div _ hx, pixelOffset_div _ hx'] at hmod hdiv
  exact ⟨hmod, hdiv⟩

/-- Settles O13: a column of the canvas is smaller than the stride. -/
theorem pixelsAreDistinctBytesOfTheBuffer : Obligations.PixelsAreDistinctBytesOfTheBuffer := by
  intro b
  have hs : 300 ≤ b.stride := fullWidth_le_stride b
  exact ⟨hs, fun _ _ => rfl, fun x hx _ _ x' hx' _ _ h =>
    pixelOffset_inj (Nat.lt_of_lt_of_le hx hs) (Nat.lt_of_lt_of_le hx' hs) h⟩

/-! ### The rectangle primitives (R70, R71) -/

/-- A rectangle leaves the canvas when its right or its lower edge does. -/
theorem rectFits_eq_false_iff {t : Rect} :
    rectFits t = false ↔ fullWidth < t.x + t.w ∨ fullHeight < t.y + t.h := by
  rw [← Bool.not_eq_true, rectFits_iff]
  omega

/-- The byte of a pixel is the colour's number (R66). -/
theorem pixelByte_toNat (c : Color) : (pixelByte c).toNat = c.toNat :=
  BitVec.toNat_setWidth_of_le (by decide)

/-- Settles O11, from the closed form of a fill. -/
theorem rectFillWritesItsRectangle : Obligations.RectFillWritesItsRectangle := by
  refine fun b t c => ⟨fun hfit => ?_, fun hout => rectFill_eq_none.2 (rectFits_eq_false_iff.2 hout)⟩
  obtain ⟨b', e, hhandle, hpad, hpixels, hframe, -⟩ := rectFill_total (b := b) (rectFits_iff.2 hfit) c
  refine ⟨b', e, hhandle, hpad, fun x hx y _ hin => ?_, hframe⟩
  rw [hpixels x hx y, if_pos (rectHas_iff.2 hin), pixelByte_toNat]

/-- Settles O12, from the closed form of a copy. -/
theorem rectCopyMovesItsRectangle : Obligations.RectCopyMovesItsRectangle := by
  intro n o dx dy src
  refine ⟨fun ⟨hdx, hdy, hsx, hsy⟩ => ?_, fun hout => rectCopy_eq_none.2 ?_⟩
  · have hd : rectFits ⟨dx, dy, src.w, src.h⟩ = true := rectFits_iff.2 ⟨hdx, hdy⟩
    obtain ⟨n', e, -⟩ := rectCopy_total (n := n) (o := o) hd (rectFits_iff.2 ⟨hsx, hsy⟩)
    obtain ⟨hhandle, hpad, hbytes⟩ := rectCopy_spec e
    refine ⟨n', e, hhandle, hpad, fun i hi j hj => ?_, fun a ha => by simp [hbytes a, ha]⟩
    have hin : rectHas ⟨dx, dy, src.w, src.h⟩ (dx + i) (dy + j) = true := rectHas_iff.2 (by simp only; omega)
    rw [pixelAt_rectCopy e (by simp only [fullWidth]; omega), if_pos hin, Nat.add_sub_cancel_left,
      Nat.add_sub_cancel_left, Nat.add_comm i, Nat.add_comm j]
  · simp only [Bool.and_eq_false_iff, rectFits_eq_false_iff]
    exact or_assoc.2 hout

/-- Settles O14, from the canonical form of an update and of a copy. -/
theorem rectOperationsKeepCanonicalForm : Obligations.RectOperationsKeepCanonicalForm :=
  ⟨fun _ _ _ _ hb h => canonical_updateRect h hb, fun _ _ _ _ _ _ hn ho h => canonical_rectCopy h hn ho⟩

/-! ### No step faults (R63) -/

/-- A step answers a next state, or the refusal where the host grants the buffer the block holds. -/
theorem step_next_or_refused (s : State) :
    (∃ t, step s = .next t) ∨ (step s = .refused .heldBufferGranted ∧ ¬ s.hostDutiful) := by
  cases hi : s.input with
  | nil => exact .inl ⟨s, step_idle hi⟩
  | cons act rest =>
    cases act with
    | reset b0 =>
      obtain ⟨b, e, -⟩ := hostReset_total b0 { s with input := rest }
      exact .inl ⟨_, (step_reset hi).trans e⟩
    | packet r al =>
      rcases step_record_cases hi with ⟨-, e⟩ | ⟨-, _, -, -, e⟩ | ⟨-, -, -, e⟩ | ⟨-, -, hg, e⟩
      · exact .inl ⟨_, e⟩
      · exact .inl ⟨_, e⟩
      · exact .inl ⟨_, e⟩
      · exact .inr ⟨e, by simpa [State.hostDutiful, hi] using hg⟩

/-- Settles O20, by the two endings of a step. -/
theorem stepNeverFaults : Obligations.StepNeverFaults := by
  intro s
  rcases step_next_or_refused s with ⟨t, e⟩ | ⟨e, hbad⟩
  · exact ⟨by simp [e], fun _ => ⟨t, e⟩⟩
  · exact ⟨by simp [e], fun hd => absurd hd hbad⟩

end Sys2Proof.Machine
end

section
/-! Noninterference of the buffers (spec/20_memory.md R61, decision D14; 44_scroll.md R235, R240): two states that show the
same picture run every record alike, whatever the handles, strides, padding and former content of their buffers. -/

namespace Sys2Proof.Machine

/-! ### The relations -/

/-- Two states in the middle of a step that show the same picture: what they have put out so far is equal, what they have
requested is equal up to the handles. -/
structure SameSoFar (s t : State) : Prop extends SamePicture s t where
  out : s.out = t.out
  events : List.Forall₂ HostRequest.sameKind s.events t.events

/-- What the end of a step shows is the same: the picture, the error if any, the frame if any, the requests. -/
structure SameResults (t t' : State) : Prop where
  picture : SamePicture t t'
  errors : ∀ e, t.out = some (.error e) ↔ t'.out = some (.error e)
  frames : ∀ f, t.out = some (.ok f) → ∃ f', t'.out = some (.ok f') ∧ SameFrame f f'
  frames' : ∀ f', t'.out = some (.ok f') → ∃ f, t.out = some (.ok f) ∧ SameFrame f f'
  requests : List.Forall₂ HostRequest.sameKind t.events t'.events

/-- Where the first outcome is a next state, so is the second, and the two states are related. -/
def NextRelated (R : State → State → Prop) (o o' : Host.Outcome State Fault Refusal) : Prop :=
  ∀ t, o = .next t → ∃ t', o' = .next t' ∧ R t t'

theorem NextRelated.next {R : State → State → Prop} {t t' : State} (h : R t t') : NextRelated R (.next t) (.next t') := by
  rintro _ ⟨⟩
  exact ⟨t', rfl, h⟩

theorem NextRelated.refused {R : State → State → Prop} (e : Refusal) (o : Host.Outcome State Fault Refusal) :
    NextRelated R (.refused e) o := by
  rintro _ ⟨⟩

theorem NextRelated.mapNext {R R' : State → State → Prop} {k k' : State → State}
    {o o' : Host.Outcome State Fault Refusal} (h : NextRelated R o o') (hk : ∀ t t', R t t' → R' (k t) (k' t')) :
    NextRelated R' (mapNext k o) (mapNext k' o') := by
  intro t ht
  obtain ⟨u, hu, rfl⟩ := mapNext_eq_next.1 ht
  obtain ⟨u', hu', hR⟩ := h u hu
  exact ⟨k' u', mapNext_eq_next.2 ⟨u', hu', rfl⟩, hk u u' hR⟩

/-! ### Each update of the state keeps the relation -/

section
variable {s s' : State}

theorem SameSoFar.setLive (h : SameSoFar s s') {b b' : Buffer}
    (hpixels : ∀ x < fullWidth, ∀ y < fullHeight, pixelAt b x y = pixelAt b' x y) :
    SameSoFar (setLive b s) (setLive b' s') :=
  { h with pixels := hpixels }

theorem SameSoFar.setPal (h : SameSoFar s s') {p p' : Palette} (hp : p = p') :
    SameSoFar (setPal p s) (setPal p' s') :=
  { h with pal := hp }

theorem SameSoFar.setPcf (h : SameSoFar s s') : SameSoFar (setPcf s) (setPcf s') :=
  { h with pcf := rfl }

theorem SameSoFar.setOffsets (h : SameSoFar s s') (hoff : BitVec 3) (voff : BitVec 4) :
    SameSoFar (setOffsets hoff voff s) (setOffsets hoff voff s') :=
  { h with hs := rfl, vs := rfl }

theorem SameSoFar.requestBuffer (h : SameSoFar s s') : SameSoFar (requestBuffer s) (requestBuffer s') :=
  { h with events := List.rel_append h.events (.cons trivial .nil) }

theorem SameSoFar.raise (h : SameSoFar s s') (e : ErrorKind) : SameSoFar (raise e s) (raise e s') :=
  { h with out := rfl }

theorem SameSoFar.policyClear (h : SameSoFar s s') : SameSoFar (policyClear s) (policyClear s') where
  pixels := by simpa using h.pixels
  pal := by simpa using h.pal
  hs := by simpa using h.hs
  vs := by simpa using h.vs
  pcf := by rw [policyClear_pcf, policyClear_pcf, h.pcfPolicy, h.pcf]
  pcfPolicy := by simpa using h.pcfPolicy
  out := by simpa using h.out
  events := by simpa using h.events

theorem SamePicture.beginStep (h : SamePicture s s') (al al' : Alloc) (rest rest' : List HostAction) :
    SameSoFar (beginStep al rest s) (beginStep al' rest' s') :=
  { h with out := rfl, events := .nil }

/-! ### The instructions -/

/-- A fill that fits gives both states the colour at the same pixels. -/
theorem SameSoFar.rectFill (h : SameSoFar s s') {t : Rect} (ht : rectFits t = true) (c : Color) :
    NextRelated SameSoFar (storeLive (rectFill s.live t c) s) (storeLive (rectFill s'.live t c) s') := by
  obtain ⟨b, e, -, -, hb, -⟩ := rectFill_total (b := s.live) ht c
  obtain ⟨b', e', -, -, hb', -⟩ := rectFill_total (b := s'.live) ht c
  rw [e, e']
  exact .next (h.setLive fun x hx y hy => by rw [hb x hx y, hb' x hx y, h.pixels x hx y hy])

theorem SameSoFar.fillBorder (h : SameSoFar s s') (c : Color) :
    NextRelated SameSoFar (storeLive (fillBorder s.live c) s) (storeLive (fillBorder s'.live c) s') := by
  obtain ⟨b, e, -, -, hb, -⟩ := fillBorder_total s.live c
  obtain ⟨b', e', -, -, hb', -⟩ := fillBorder_total s'.live c
  rw [e, e']
  exact .next (h.setLive fun x hx y hy => by rw [hb x hx y hy, hb' x hx y hy, h.pixels x hx y hy])

/-- The repeat field alone decides whether a preset fills (R161). -/
theorem SameSoFar.whenFirst (h : SameSoFar s s') {fill : State → Host.Outcome State Fault Refusal}
    (hfill : NextRelated SameSoFar (fill s) (fill s')) (rep : BitVec 4) :
    NextRelated SameSoFar (whenFirst rep fill s) (whenFirst rep fill s') := by
  by_cases hrep : rep = 0
  · subst hrep
    exact hfill
  · rw [whenFirst_repeated hrep, whenFirst_repeated hrep]
    exact .next h

/-- Both states clip the tile or neither does, and its pixels are the same ones. -/
theorem SameSoFar.paintTile (h : SameSoFar s s') (mode : Byte → Byte → Byte) (c0 c1 : Color) (rowf : BitVec 5)
    (colf : BitVec 6) (bm : Bitmap) :
    NextRelated SameSoFar (paintTile mode c0 c1 rowf colf bm s) (paintTile mode c0 c1 rowf colf bm s') := by
  have hclip : tileClipped rowf colf s' = tileClipped rowf colf s := by rw [tileClipped, tileClipped, h.hs, h.vs]
  have hrect : tileRect rowf colf s' = tileRect rowf colf s := by rw [tileRect, tileRect, h.hs, h.vs]
  cases hc : tileClipped rowf colf s with
  | true =>
    rw [paintTile_clipped hc, paintTile_clipped (hclip.trans hc)]
    exact .next h
  | false =>
    obtain ⟨b, e, -, -, hb, -⟩ := paintTile_painted hc mode c0 c1 bm
    obtain ⟨b', e', -, -, hb', -⟩ := paintTile_painted (hclip.trans hc) mode c0 c1 bm
    rw [e, e']
    exact .next (h.setLive fun x hx y hy => by rw [hb x hx y, hb' x hx y, hrect, h.pixels x hx y hy])

/-- A scroll takes the same one of its outcomes in both states; where it swaps, the new pixels are the closed form over
the old ones, whatever the granted buffers hold (R235, R244). -/
theorem SameSoFar.scroll (h : SameSoFar s s') (hkind : sameKind s.alloc s'.alloc) (hfresh : grantsFresh s'.alloc s')
    (mode : FillMode) (hcmd : BitVec 2) (hoff : BitVec 3) (vcmd : BitVec 2) (voff : BitVec 4) :
    NextRelated SameSoFar (scroll mode hcmd hoff vcmd voff s) (scroll mode hcmd hoff vcmd voff s') := by
  by_cases hz : hinc hcmd hoff s.hs = 0 ∧ vinc vcmd voff s.vs = 0
  · rw [scroll_zero hz, scroll_zero (by rwa [← h.hs, ← h.vs])]
    exact .next (h.setOffsets hoff voff)
  have hz' : ¬ (hinc hcmd hoff s'.hs = 0 ∧ vinc vcmd voff s'.vs = 0) := by rwa [← h.hs, ← h.vs]
  cases ha : s.alloc with
  | deny =>
    cases ha' : s'.alloc with
    | grant b' => simp [ha, ha', sameKind] at hkind
    | deny =>
      rw [scroll_deny hz ha, scroll_deny hz' ha']
      exact .next (h.requestBuffer.raise _)
  | grant b =>
    cases ha' : s'.alloc with
    | deny => simp [ha, ha', sameKind] at hkind
    | grant b' =>
      by_cases hheld : b.handle = s.live.handle
      · rw [scroll_held hz ha hheld]
        exact .refused _ _
      obtain ⟨n, e, -, -, hn, -⟩ := scroll_grant (mode := mode) hz ha hheld
      obtain ⟨n', e', -, -, hn', -⟩ := scroll_grant (mode := mode) hz' ha' (by simpa [ha', grantsFresh] using hfresh)
      rw [e, e']
      refine .next { h with
        pixels := fun x hx y hy => ?_, hs := rfl, vs := rfl
        events := List.rel_append h.events (.cons trivial (.cons trivial .nil)) }
      rw [hn x hx y hy, hn' x hx y hy, ← h.hs, ← h.vs]
      exact scrolledPixel_congr h.pixels (Nat.le_trans (hinc_natAbs_le hcmd hoff s.hs) (by decide))
        (Nat.le_trans (vinc_natAbs_le vcmd voff s.vs) (by decide)) mode hx hy

/-- Every instruction runs alike. -/
theorem SameSoFar.exec (h : SameSoFar s s') (hkind : sameKind s.alloc s'.alloc) (hfresh : grantsFresh s'.alloc s')
    (i : Instr) : NextRelated SameSoFar (exec i s) (exec i s') := by
  cases i with
  | memPreset color rep =>
    rw [exec_memPreset, exec_memPreset, execMemPreset, execMemPreset]
    exact h.whenFirst (h.rectFill (by decide) color) rep
  | borderPreset color rep =>
    rw [exec_borderPreset, exec_borderPreset, execBorderPreset, execBorderPreset]
    exact h.whenFirst (h.fillBorder color) rep
  | tile c0 c1 rowf colf bm =>
    rw [exec_tile, exec_tile]
    exact h.paintTile _ c0 c1 rowf colf bm
  | tileX c0 c1 rowf colf bm =>
    rw [exec_tileX, exec_tileX]
    exact h.paintTile _ c0 c1 rowf colf bm
  | scrollP color hcmd hoff vcmd voff =>
    rw [exec_scrollP, exec_scrollP]
    exact h.scroll hkind hfresh _ hcmd hoff vcmd voff
  | scrollC color hcmd hoff vcmd voff =>
    rw [exec_scrollC, exec_scrollC]
    exact h.scroll hkind hfresh _ hcmd hoff vcmd voff
  | palLo rgb => exact .next (h.setPal (congrArg (loadLow · rgb) h.pal)).setPcf
  | palHi rgb => exact .next (h.setPal (congrArg (loadHigh · rgb) h.pal)).setPcf
  | nop => exact .next h

/-! ### The end of a step -/

/-- The frames of two states that show the same picture show it to the sink. -/
theorem SamePicture.frameOf (h : SamePicture s s') : SameFrame (frameOf s) (frameOf s') :=
  ⟨h.pixels, h.pal, h.pcf⟩

theorem SameSoFar.emit (h : SameSoFar s s') : SameResults (emit s) (emit s') where
  picture := { h with }
  errors := by simp
  frames := by rintro _ ⟨⟩; exact ⟨_, rfl, h.frameOf⟩
  frames' := by rintro _ ⟨⟩; exact ⟨_, rfl, h.frameOf⟩
  requests := h.events

/-- Two states that report the same error put out no frame. -/
theorem SameSoFar.sameResults_of_error (h : SameSoFar s s') {e : ErrorKind} (he : s.out = some (.error e)) :
    SameResults s s' where
  picture := h.toSamePicture
  errors := by simp [h.out]
  frames := by simp [he]
  frames' := by simp [← h.out, he]
  requests := h.events

/-- The end of a step: both states fail with the same error, or both emit their frames. -/
theorem SamePicture.finishStep (h : SamePicture s s') {u u' : State} (hu : SameSoFar u u') :
    SameResults (finishStep s u) (finishStep s' u') := by
  have hfailed : failed u' = failed u := by rw [failed, failed, hu.out]
  cases hf : failed u with
  | false =>
    rw [finishStep_of_ok hf, finishStep_of_ok (hfailed.trans hf)]
    exact hu.emit
  | true =>
    obtain ⟨e, he⟩ := failed_iff.1 hf
    rw [finishStep_of_failed hf, finishStep_of_failed (hfailed.trans hf)]
    exact SameSoFar.sameResults_of_error { h with out := hu.out, events := hu.events } he

/-- A record runs alike: both parse it the same way, run the same instruction and end alike. -/
theorem SameSoFar.runRecord (h : SameSoFar s s') (hkind : sameKind s.alloc s'.alloc) (hfresh : grantsFresh s'.alloc s')
    (r : Record) : NextRelated SameResults (runRecord Machine.exec r s) (runRecord Machine.exec r s') := by
  by_cases hl : r.length = packetSize
  · rw [runRecord_packet hl, runRecord_packet hl]
    refine (h.policyClear.exec ?_ ?_ (decodePacket r)).mapNext fun _ _ => h.finishStep
    · simpa using hkind
    · simpa [grantsFresh] using hfresh
  · rw [runRecord_malformed hl, runRecord_malformed hl]
    exact .next (SameSoFar.sameResults_of_error { h with out := rfl } rfl)

end

/-- Settles O55: the two steps start alike, and a record runs alike. -/
theorem resultsDoNotDependOnTheBuffers : Obligations.ResultsDoNotDependOnTheBuffers := by
  intro s s' t r al al' rest rest' hpic hi hi' hkind hfresh hstep
  rw [step_packet hi] at hstep
  obtain ⟨t', e, hres⟩ := (hpic.beginStep al al' rest rest').runRecord hkind hfresh r t hstep
  exact ⟨t', (step_packet hi').trans e, hres.picture, hres.errors, hres.frames, hres.frames', hres.requests⟩

end Sys2Proof.Machine
end

section
/-! The encoding of packets (spec/30_encoding.md): what each row of the opcode table reads from a record, that only the low
six bits of the used bytes count, and that the decoder undoes the encoder. -/

namespace Sys2Proof
open Machine

/-! ### The decode word and the opcode table (R92 to R95) -/

theorem decodeWord_toNat (r : Record) :
    (decodeWord r).toNat = (packetByte r 0).toNat <<< 8 ||| (packetByte r 1).toNat :=
  BitVec.toNat_append _ _

theorem and_mask_eq_low6 (v : Byte) : v &&& 0x3F = (low6 v).setWidth 8 := by revert v; decide

/-- The masked decode word holds the command and the instruction field and nothing else. -/
theorem decodeWord_masked (r : Record) :
    decodeWord r &&& 0x3F3F = (commandField r).setWidth 8 ++ (instructionField r).setWidth 8 := by
  rw [decodeWord, show (0x3F3F : BitVec 16) = (0x3F : Byte) ++ (0x3F : Byte) from rfl, BitVec.and_append,
    and_mask_eq_low6, and_mask_eq_low6, commandField, instructionField]

theorem opcodeOf_decodeWord (r : Record) :
    opcodeOf (decodeWord r) = opcodeOf ((commandField r).setWidth 8 ++ (instructionField r).setWidth 8) := by
  rw [opcodeOf_masked, decodeWord_masked]

theorem opcodeTable_mask : ∀ row ∈ opcodeTable, row.mask = 0x3F3F := by decide

theorem opcodeTable_pattern_inj :
    ∀ row ∈ opcodeTable, ∀ row' ∈ opcodeTable, row.pattern = row'.pattern → row = row' := by decide

theorem opcodeOf_pattern : ∀ row ∈ opcodeTable, opcodeOf row.pattern = row.opcode := by decide

/-- A row that matches a word is the row the word selects. -/
theorem opcodeOf_of_match {row : OpcodeRow} (hr : row ∈ opcodeTable) {w : BitVec 16}
    (hw : w &&& row.mask = row.pattern) : opcodeOf w = row.opcode := by
  rw [opcodeTable_mask row hr] at hw
  rw [opcodeOf_masked, hw, opcodeOf_pattern row hr]

/-- A word that no row matches selects `NOP`. -/
theorem opcodeOf_of_no_match {w : BitVec 16} (hw : ∀ row ∈ opcodeTable, w &&& row.mask ≠ row.pattern) :
    opcodeOf w = .nop := by
  have hnone : opcodeTable.find? (rowSelects · w) = none := by
    simpa [List.find?_eq_none, rowSelects] using hw
  rw [opcodeOf, hnone]

theorem commandField_eq (r : Record) : commandField r = (decodeWord r).extractLsb' 8 6 :=
  (BitVec.extractLsb'_append_eq_of_le (xhi := packetByte r 0) (xlo := packetByte r 1) (start := 8) (by decide)).symm

/-- With a command other than 0x09 no row matches (R92). -/
theorem opcodeOf_foreign {w : BitVec 16} (hc : w.extractLsb' 8 6 ≠ 0x09) : opcodeOf w = .nop := by
  refine opcodeOf_of_no_match fun row hr hw => hc ?_
  have hrow : ∀ row ∈ opcodeTable, row.mask.extractLsb' 8 6 = BitVec.allOnes 6 ∧ row.pattern.extractLsb' 8 6 = 0x09 := by
    decide
  obtain ⟨hmask, hpattern⟩ := hrow row hr
  rw [← hpattern, ← hw, BitVec.extractLsb'_and, hmask, BitVec.and_allOnes]

/-- With the command 0x09 the instruction field is the code of R94. -/
theorem opcodeOf_cdg (i : BitVec 6) :
    opcodeOf ((0x09 : Byte) ++ i.setWidth 8) =
      if i.toNat = 1 then .memPreset else if i.toNat = 2 then .borderPreset else if i.toNat = 6 then .tile
      else if i.toNat = 20 then .scrollP else if i.toNat = 24 then .scrollC else if i.toNat = 30 then .palLo
      else if i.toNat = 31 then .palHi else if i.toNat = 38 then .tileX else .nop := by
  revert i; decide

/-- Settles O5: all rows have one mask and different matches, so the first row found is the only one. -/
theorem opcodeRowsExcludeEachOther : Obligations.OpcodeRowsExcludeEachOther := by
  refine ⟨decodeWord_toNat, by decide, rfl, by decide, fun w => ⟨?_, fun row hr => opcodeOf_of_match hr, ?_⟩⟩
  · intro row hr row' hr' hw hw'
    rw [opcodeTable_mask _ hr] at hw
    rw [opcodeTable_mask _ hr'] at hw'
    exact opcodeTable_pattern_inj row hr row' hr' (hw.symm.trans hw')
  · refine ⟨fun hnop row hr hw => ?_, opcodeOf_of_no_match⟩
    have hrow : ∀ row ∈ opcodeTable, row.opcode ≠ .nop := by decide
    exact hrow row hr ((opcodeOf_of_match hr hw).symm.trans hnop)

/-- Settles O6, by the command: 0x09 leaves the choice to the code, any other matches no row. -/
theorem commandAndCodeSelectTheInstruction : Obligations.CommandAndCodeSelectTheInstruction := by
  intro r
  rw [← low6_toNat, ← low6_toNat]
  split
  next hc =>
    have hcommand : commandField r = 0x09 := BitVec.eq_of_toNat_eq hc
    rw [opcodeOf_decodeWord, hcommand]
    exact opcodeOf_cdg (instructionField r)
  next hc => exact opcodeOf_foreign (commandField_eq r ▸ fun h => hc (congrArg BitVec.toNat h))

/-! ### The instruction of a row (R94 to R99) -/

/-- The instruction a row of the opcode table reads from a record. -/
def instrOfRow (r : Record) : Opcode → Instr
  | .memPreset => .memPreset (low4 (dataByte r 0)) (low4 (dataByte r 1))
  | .borderPreset => .borderPreset (low4 (dataByte r 0)) (low4 (dataByte r 1))
  | .tile =>
    .tile (low4 (dataByte r 0)) (low4 (dataByte r 1)) (tileRowField (dataByte r 2)) (low6 (dataByte r 3)) (bitmapRows r)
  | .scrollP =>
    .scrollP (low4 (dataByte r 0)) (directionField (dataByte r 1)) (clampH (dataByte r 1))
      (directionField (dataByte r 2)) (clampV (dataByte r 2))
  | .scrollC =>
    .scrollC (low4 (dataByte r 0)) (directionField (dataByte r 1)) (clampH (dataByte r 1))
      (directionField (dataByte r 2)) (clampV (dataByte r 2))
  | .palLo => .palLo (colorEntries r)
  | .palHi => .palHi (colorEntries r)
  | .tileX =>
    .tileX (low4 (dataByte r 0)) (low4 (dataByte r 1)) (tileRowField (dataByte r 2)) (low6 (dataByte r 3)) (bitmapRows r)
  | .nop => .nop

theorem decodePacket_eq (r : Record) : decodePacket r = instrOfRow r (opcodeOf (decodeWord r)) := by
  unfold decodePacket
  cases opcodeOf (decodeWord r) <;> rfl

/-- A record that selects a pattern decodes to the instruction of the pattern's row. -/
theorem decode_of_recordSelects {p : BitVec 16} {r : Record} (h : RecordSelects p r) :
    decode r = .ok (instrOfRow r (opcodeOf p)) := by
  obtain ⟨hdecode, hrow⟩ := decode_of_selects h.1 h.2
  rw [hdecode, decodePacket_eq, hrow]

section
variable {r : Record}

theorem decode_memPreset (h : RecordSelects 0x0901 r) :
    decode r = .ok (.memPreset (low4 (dataByte r 0)) (low4 (dataByte r 1))) := decode_of_recordSelects h

theorem decode_borderPreset (h : RecordSelects 0x0902 r) :
    decode r = .ok (.borderPreset (low4 (dataByte r 0)) (low4 (dataByte r 1))) := decode_of_recordSelects h

theorem decode_tile (h : RecordSelects 0x0906 r) :
    decode r = .ok (.tile (low4 (dataByte r 0)) (low4 (dataByte r 1)) (tileRowField (dataByte r 2))
      (low6 (dataByte r 3)) (bitmapRows r)) := decode_of_recordSelects h

theorem decode_scrollP (h : RecordSelects 0x0914 r) :
    decode r = .ok (.scrollP (low4 (dataByte r 0)) (directionField (dataByte r 1)) (clampH (dataByte r 1))
      (directionField (dataByte r 2)) (clampV (dataByte r 2))) := decode_of_recordSelects h

theorem decode_scrollC (h : RecordSelects 0x0918 r) :
    decode r = .ok (.scrollC (low4 (dataByte r 0)) (directionField (dataByte r 1)) (clampH (dataByte r 1))
      (directionField (dataByte r 2)) (clampV (dataByte r 2))) := decode_of_recordSelects h

theorem decode_palLo (h : RecordSelects 0x091E r) : decode r = .ok (.palLo (colorEntries r)) :=
  decode_of_recordSelects h

theorem decode_palHi (h : RecordSelects 0x091F r) : decode r = .ok (.palHi (colorEntries r)) :=
  decode_of_recordSelects h

theorem decode_tileX (h : RecordSelects 0x0926 r) :
    decode r = .ok (.tileX (low4 (dataByte r 0)) (low4 (dataByte r 1)) (tileRowField (dataByte r 2))
      (low6 (dataByte r 3)) (bitmapRows r)) := decode_of_recordSelects h

end

theorem bitmapRows_getElem (r : Record) (j : Fin 12) : (bitmapRows r)[j] = low6 (dataByte r (4 + j)) := by
  fin_cases j <;> rfl

theorem colorEntries_getElem (r : Record) (k : Fin 8) :
    (colorEntries r)[k] = colorEntry (dataByte r (2 * k)) (dataByte r (2 * k + 1)) := by
  fin_cases k <;> rfl

theorem assembleColor_eq_append (hi lo : Byte) : assembleColor hi lo = hi ++ low6 lo :=
  BitVec.eq_of_toNat_eq (by rw [assembleColor_toNat, ← low6_toNat]; exact (BitVec.toNat_append _ _).symm)

/-- The 12-bit entry is the low six bits of its two bytes side by side (R97). -/
theorem colorEntry_eq_append (hi lo : Byte) : colorEntry hi lo = low6 hi ++ low6 lo := by
  rw [colorEntry, assembleColor_eq_append]
  refine BitVec.extractLsb'_append_eq_ite.trans ?_
  rw [dif_pos (by decide), dif_neg (by decide)]
  exact congrArg (low6 hi ++ ·) BitVec.extractLsb'_eq_self

/-- Settles O1: each record selects the row of its instruction, the last two records no row. -/
theorem samplePacketsDecode : Obligations.SamplePacketsDecode :=
  ⟨decode_memPreset ⟨rfl, rfl⟩, decode_borderPreset ⟨rfl, rfl⟩, decode_tile ⟨rfl, rfl⟩, decode_tileX ⟨rfl, rfl⟩,
    decode_scrollP ⟨rfl, rfl⟩, decode_scrollC ⟨rfl, rfl⟩, decode_palLo ⟨rfl, rfl⟩, decode_palHi ⟨rfl, rfl⟩,
    decode_of_recordSelects (p := 0x3F01) ⟨rfl, rfl⟩, decode_of_recordSelects (p := 0x0905) ⟨rfl, rfl⟩⟩

/-- Settles O7: both rows read the same two nibbles. -/
theorem presetOperandsAreLowNibbles : Obligations.PresetOperandsAreLowNibbles := fun _ =>
  ⟨fun h => ⟨_, _, decode_memPreset h, low4_toNat _, low4_toNat _⟩,
    fun h => ⟨_, _, decode_borderPreset h, low4_toNat _, low4_toNat _⟩⟩

/-- The three channels of an entry are bits of its two bytes (R97). -/
theorem colorEntry_channels (hi lo : Byte) :
    (colorEntry hi lo).extractLsb' 8 4 = hi.extractLsb' 2 4 ∧
    (colorEntry hi lo).extractLsb' 4 4 = hi.extractLsb' 0 2 ++ lo.extractLsb' 4 2 ∧
    (colorEntry hi lo).extractLsb' 0 4 = lo.extractLsb' 0 4 := by
  rw [colorEntry_eq_append]
  refine ⟨?_, ?_, ?_⟩
  · exact (BitVec.extractLsb'_append_eq_of_le (by decide)).trans (BitVec.extractLsb'_extractLsb'_of_le (by decide))
  · refine BitVec.extractLsb'_append_eq_ite.trans ?_
    rw [dif_pos (by decide), dif_neg (by decide), low6, low6, BitVec.extractLsb'_extractLsb'_of_le (by decide),
      BitVec.extractLsb'_extractLsb'_of_le (by decide)]
    rfl
  · exact (BitVec.extractLsb'_append_eq_of_add_le (by decide)).trans (BitVec.extractLsb'_extractLsb'_of_le (by decide))

theorem colorEntries_toNat (r : Record) (k : Fin 8) : (colorEntries r)[k].toNat =
    ((dataByte r (2 * k)).toNat <<< 6 ||| (dataByte r (2 * k + 1)).toNat &&& 0x3F) &&& 0xFFF := by
  rw [colorEntries_getElem, colorEntry_toNat]

/-- Settles O8: both rows read the same entries. -/
theorem paletteOperandsAreTwelveBitEntries : Obligations.PaletteOperandsAreTwelveBitEntries :=
  ⟨fun r => ⟨fun h => ⟨_, decode_palLo h, colorEntries_toNat r⟩, fun h => ⟨_, decode_palHi h, colorEntries_toNat r⟩⟩,
    fun hi lo => ⟨assembleColor_toNat hi lo, colorEntry_channels hi lo⟩⟩

/-- The operands both tile rows read, as numbers (R98). -/
theorem tileOperands_toNat (r : Record) :
    (low4 (dataByte r 0)).toNat = (dataByte r 0).toNat &&& 0x0F ∧
    (low4 (dataByte r 1)).toNat = (dataByte r 1).toNat &&& 0x0F ∧
    (tileRowField (dataByte r 2)).toNat = (dataByte r 2).toNat &&& 0x1F ∧
    (low6 (dataByte r 3)).toNat = (dataByte r 3).toNat &&& 0x3F ∧
    ∀ j : Fin 12, (bitmapRows r)[j].toNat = (dataByte r (4 + j)).toNat &&& 0x3F :=
  ⟨low4_toNat _, low4_toNat _, tileRowField_toNat _, low6_toNat _, fun j => by rw [bitmapRows_getElem, low6_toNat]⟩

/-- Column `i` of a bitmap row is its bit `5 - i` (R98). -/
theorem tileBit_eq_testBit (bm : Bitmap) (i : Nat) (j : Fin 12) : tileBit bm i j = bm[j].toNat.testBit (5 - i) := by
  have hrow : bm.getD j 0 = bm[j] := by simp [Vector.getD]
  rw [tileBit, hrow]
  exact (BitVec.testBit_toNat _).symm

/-- Settles O9: both rows read the same operands. -/
theorem tileOperandsAreMaskedFields : Obligations.TileOperandsAreMaskedFields :=
  ⟨fun r => ⟨fun h => ⟨_, _, _, _, _, decode_tile h, tileOperands_toNat r⟩,
      fun h => ⟨_, _, _, _, _, decode_tileX h, tileOperands_toNat r⟩⟩,
    fun _ => rfl, fun _ => rfl, fun bm j i _ => tileBit_eq_testBit bm i j⟩

/-- The operands both scroll rows read, as numbers (R99). -/
theorem scrollOperands_toNat (r : Record) :
    (low4 (dataByte r 0)).toNat = (dataByte r 0).toNat &&& 0x0F ∧
    (directionField (dataByte r 1)).toNat = (dataByte r 1).toNat >>> 4 &&& 0x3 ∧
    (clampH (dataByte r 1)).toNat = min ((dataByte r 1).toNat &&& 0x7) 5 ∧
    (directionField (dataByte r 2)).toNat = (dataByte r 2).toNat >>> 4 &&& 0x3 ∧
    (clampV (dataByte r 2)).toNat = min ((dataByte r 2).toNat &&& 0xF) 11 :=
  ⟨low4_toNat _, directionField_toNat _, clampH_toNat _, directionField_toNat _, clampV_toNat _⟩

/-- Settles O10: both rows read the same operands. -/
theorem scrollOperandsAreClamped : Obligations.ScrollOperandsAreClamped := fun r =>
  ⟨fun h => ⟨_, _, _, _, _, decode_scrollP h, scrollOperands_toNat r⟩,
    fun h => ⟨_, _, _, _, _, decode_scrollC h, scrollOperands_toNat r⟩⟩

/-! ### What the decoding depends on (R90, R91, R101) -/

/-- Settles O3: the length is the decoder's only test, and every instruction it reads is well-formed. -/
theorem recordLengthAloneDecidesParsing : Obligations.RecordLengthAloneDecidesParsing := fun r =>
  ⟨fun hl => ⟨decodePacket r, decodePacket_wellFormed r, decode_of_length hl⟩, decode_of_length_ne⟩

section
variable {v w : Byte}

/-- Any range of bits below bit 6 is a range of the low six bits. -/
theorem extractLsb'_congr_low6 (h : low6 v = low6 w) {start len : Nat} (hle : start + len ≤ 6) :
    v.extractLsb' start len = w.extractLsb' start len := by
  have hbits := congrArg (BitVec.extractLsb' start len) h
  rwa [low6, low6, BitVec.extractLsb'_extractLsb'_of_le hle, BitVec.extractLsb'_extractLsb'_of_le hle] at hbits

theorem low4_congr (h : low6 v = low6 w) : low4 v = low4 w := extractLsb'_congr_low6 h (by decide)

theorem tileRowField_congr (h : low6 v = low6 w) : tileRowField v = tileRowField w :=
  extractLsb'_congr_low6 h (by decide)

theorem directionField_congr (h : low6 v = low6 w) : directionField v = directionField w :=
  extractLsb'_congr_low6 h (by decide)

theorem clampH_congr (h : low6 v = low6 w) : clampH v = clampH w := by
  rw [clampH, clampH, extractLsb'_congr_low6 h (by decide)]

theorem clampV_congr (h : low6 v = low6 w) : clampV v = clampV w := by
  rw [clampV, clampV, low4_congr h]

end

section
variable {r r' : Record} (hd : ∀ i < 16, low6 (dataByte r i) = low6 (dataByte r' i))
include hd

theorem bitmapRows_congr : bitmapRows r = bitmapRows r' := by
  refine Vector.ext fun j hj => ?_
  have hrow := hd (4 + j) (by omega)
  exact (bitmapRows_getElem r ⟨j, hj⟩).trans (hrow.trans (bitmapRows_getElem r' ⟨j, hj⟩).symm)

theorem colorEntries_congr : colorEntries r = colorEntries r' := by
  refine Vector.ext fun k hk => ?_
  have hentry : colorEntry (dataByte r (2 * k)) (dataByte r (2 * k + 1)) =
      colorEntry (dataByte r' (2 * k)) (dataByte r' (2 * k + 1)) := by
    rw [colorEntry_eq_append, colorEntry_eq_append, hd (2 * k) (by omega), hd (2 * k + 1) (by omega)]
  exact (colorEntries_getElem r ⟨k, hk⟩).trans (hentry.trans (colorEntries_getElem r' ⟨k, hk⟩).symm)

/-- Every row reads its operands from the low six bits of the data bytes. -/
theorem instrOfRow_congr (op : Opcode) : instrOfRow r op = instrOfRow r' op := by
  have h0 := hd 0 (by decide)
  have h1 := hd 1 (by decide)
  have h2 := hd 2 (by decide)
  have h3 := hd 3 (by decide)
  cases op with
  | memPreset | borderPreset => simp only [instrOfRow, low4_congr h0, low4_congr h1]
  | tile | tileX =>
    simp only [instrOfRow, low4_congr h0, low4_congr h1, tileRowField_congr h2, h3, bitmapRows_congr hd]
  | scrollP | scrollC =>
    simp only [instrOfRow, low4_congr h0, directionField_congr h1, clampH_congr h1, directionField_congr h2,
      clampV_congr h2]
  | palLo | palHi => simp only [instrOfRow, colorEntries_congr hd]
  | nop => rfl

end

/-- Settles O4: the row and the operands are functions of the low six bits. -/
theorem ignoredBytesAndHighBitsDoNotMatter : Obligations.IgnoredBytesAndHighBitsDoNotMatter := by
  intro r r' hl hl' hcommand hinstruction hd
  have hrow : opcodeOf (decodeWord r) = opcodeOf (decodeWord r') := by
    have hc : commandField r = commandField r' := hcommand
    have hi : instructionField r = instructionField r' := hinstruction
    rw [opcodeOf_decodeWord, opcodeOf_decodeWord, hc, hi]
  rw [decode_of_length hl, decode_of_length hl', decodePacket_eq, decodePacket_eq, hrow, instrOfRow_congr hd]

/-! ### The decoder undoes the encoder (R102)

First each field on the byte the encoder writes for it, then the instruction of each row. -/

theorem low4_setWidth (c : BitVec 4) : low4 (c.setWidth 8) = c := by revert c; decide

theorem low6_setWidth (c : BitVec 6) : low6 (c.setWidth 8) = c := by revert c; decide

theorem tileRowField_setWidth (rowf : BitVec 5) : tileRowField (rowf.setWidth 8) = rowf := by revert rowf; decide

theorem directionField_horizontal (hcmd : BitVec 2) (hoff : BitVec 3) :
    directionField (hcmd.setWidth 8 <<< 4 ||| hoff.setWidth 8) = hcmd := by
  revert hcmd hoff; decide

theorem directionField_vertical (vcmd : BitVec 2) (voff : BitVec 4) :
    directionField (vcmd.setWidth 8 <<< 4 ||| voff.setWidth 8) = vcmd := by
  revert vcmd voff; decide

/-- The clamp keeps an offset in range. -/
theorem clampH_scrollByte (hcmd : BitVec 2) {hoff : BitVec 3} (h : hoff.toNat ≤ hsMax) :
    clampH (hcmd.setWidth 8 <<< 4 ||| hoff.setWidth 8) = hoff := by
  revert hcmd hoff; decide

theorem clampV_scrollByte (vcmd : BitVec 2) {voff : BitVec 4} (h : voff.toNat ≤ vsMax) :
    clampV (vcmd.setWidth 8 <<< 4 ||| voff.setWidth 8) = voff := by
  revert vcmd voff; decide

theorem colorEntry_entryBytes (rgb : Rgb12) : colorEntry (entryHigh rgb) (entryLow rgb) = rgb := by
  rw [colorEntry_eq_append, entryHigh, entryLow, low6_setWidth, low6_setWidth]
  exact BitVec.extractLsb'_append_extractLsb'

theorem bitmapRows_packet (ins : Byte) (c0 c1 : Color) (rowf : BitVec 5) (colf : BitVec 6) (bm : Bitmap) :
    bitmapRows (packet ins (tileData c0 c1 rowf colf bm)) = bm := by
  have hbyte : ∀ j : Fin 12,
      dataByte (packet ins (tileData c0 c1 rowf colf bm)) (4 + j) = bm[j].setWidth 8 := by
    intro j
    fin_cases j <;> rfl
  refine Vector.ext fun j hj => ?_
  exact (bitmapRows_getElem _ ⟨j, hj⟩).trans ((congrArg low6 (hbyte ⟨j, hj⟩)).trans (low6_setWidth _))

theorem colorEntries_packet (ins : Byte) (rgb : ColorEntries) :
    colorEntries (packet ins (paletteData rgb)) = rgb := by
  have hbytes : ∀ k : Fin 8, dataByte (packet ins (paletteData rgb)) (2 * k) = entryHigh rgb[k] ∧
      dataByte (packet ins (paletteData rgb)) (2 * k + 1) = entryLow rgb[k] := by
    intro k
    fin_cases k <;> exact ⟨rfl, rfl⟩
  refine Vector.ext fun k hk => ?_
  obtain ⟨hhigh, hlow⟩ := hbytes ⟨k, hk⟩
  refine (colorEntries_getElem _ ⟨k, hk⟩).trans ?_
  rw [hhigh, hlow]
  exact colorEntry_entryBytes _

theorem encode_selects_row (i : Instr) : opcodeOf (decodeWord (encode i)) = opcodeOfInstr i := by
  cases i with
  | memPreset => exact (Laws.EncodesItsRow.memPreset _ _).2
  | borderPreset => exact (Laws.EncodesItsRow.borderPreset _ _).2
  | tile => exact (Laws.EncodesItsRow.tile _ _ _ _ _).2
  | scrollP => exact (Laws.EncodesItsRow.scrollP _ _ _ _ _).2
  | scrollC => exact (Laws.EncodesItsRow.scrollC _ _ _ _ _).2
  | palLo => exact (Laws.EncodesItsRow.palLo _).2
  | palHi => exact (Laws.EncodesItsRow.palHi _).2
  | tileX => exact (Laws.EncodesItsRow.tileX _ _ _ _ _).2
  | nop => exact Laws.EncodesItsRow.nop.2

theorem presetFields_packet (color : Color) (rep : BitVec 4) (ins : Byte) :
    low4 (dataByte (packet ins (presetData color rep)) 0) = color ∧
    low4 (dataByte (packet ins (presetData color rep)) 1) = rep :=
  ⟨low4_setWidth color, low4_setWidth rep⟩

theorem tileFields_packet (c0 c1 : Color) (rowf : BitVec 5) (colf : BitVec 6) (bm : Bitmap) (ins : Byte) :
    low4 (dataByte (packet ins (tileData c0 c1 rowf colf bm)) 0) = c0 ∧
    low4 (dataByte (packet ins (tileData c0 c1 rowf colf bm)) 1) = c1 ∧
    tileRowField (dataByte (packet ins (tileData c0 c1 rowf colf bm)) 2) = rowf ∧
    low6 (dataByte (packet ins (tileData c0 c1 rowf colf bm)) 3) = colf :=
  ⟨low4_setWidth c0, low4_setWidth c1, tileRowField_setWidth rowf, low6_setWidth colf⟩

theorem scrollFields_packet {hoff : BitVec 3} {voff : BitVec 4} (hr : hoff.toNat ≤ hsMax ∧ voff.toNat ≤ vsMax)
    (color : Color) (hcmd vcmd : BitVec 2) (ins : Byte) :
    low4 (dataByte (packet ins (scrollData color hcmd hoff vcmd voff)) 0) = color ∧
    directionField (dataByte (packet ins (scrollData color hcmd hoff vcmd voff)) 1) = hcmd ∧
    clampH (dataByte (packet ins (scrollData color hcmd hoff vcmd voff)) 1) = hoff ∧
    directionField (dataByte (packet ins (scrollData color hcmd hoff vcmd voff)) 2) = vcmd ∧
    clampV (dataByte (packet ins (scrollData color hcmd hoff vcmd voff)) 2) = voff :=
  ⟨low4_setWidth color, directionField_horizontal hcmd hoff, clampH_scrollByte hcmd hr.1,
    directionField_vertical vcmd voff, clampV_scrollByte vcmd hr.2⟩

/-- The row of a well-formed instruction reads the instruction back from its packet. -/
theorem instrOfRow_encode {i : Instr} (hw : i.WellFormed) : instrOfRow (encode i) (opcodeOfInstr i) = i := by
  cases i with
  | memPreset | borderPreset => simp only [encode, opcodeOfInstr, instrOfRow, presetFields_packet]
  | tile | tileX => simp only [encode, opcodeOfInstr, instrOfRow, tileFields_packet, bitmapRows_packet]
  | scrollP | scrollC =>
    have hfields := scrollFields_packet (scrollOperands_inRange hw rfl)
    simp only [encode, opcodeOfInstr, instrOfRow, hfields]
  | palLo | palHi => simp only [encode, opcodeOfInstr, instrOfRow, colorEntries_packet]
  | nop => rfl

/-- Settles O2: the packet selects the instruction's own row, and the row reads every operand back. -/
theorem decodeOfEncodeIsTheInstruction : Obligations.DecodeOfEncodeIsTheInstruction := by
  intro i hw
  rw [decode_of_length (encode_length i), decodePacket_eq, encode_selects_row, instrOfRow_encode hw]

end Sys2Proof
end

section
/-! The dispatch of packets (spec/40_packet_dispatch.md): a step on a record as the run of its decoded instruction between
the policy clear and the frame (R131, R132, R137, R138), the no-ops (R134, R136), how a packet can end (R139), and what a
step takes from the host (R130). -/

namespace Sys2Proof.Machine

/-! ### A step as the run of one instruction (R131, R132, R138) -/

/-- The policy clear touches the flag only (R138). -/
theorem policyClear_eq (s : State) :
    policyClear s = { s with pcf := if s.params.pcfPolicy = .perPacket then false else s.pcf } := by
  cases h : s.params.pcfPolicy with
  | sticky => rw [policyClear_sticky h, if_neg (by decide)]
  | perPacket => rw [policyClear_perPacket h, if_pos rfl]

/-- A record that decodes to an instruction makes the step run it on the state after the policy clear. -/
theorem step_of_decode {s : State} {r : Record} {al : Alloc} {rest : List HostAction} {i : Instr}
    (hi : s.input = .packet r al :: rest) (hd : decode r = .ok i) :
    step s = mapNext (finishStep (beginStep al rest s)) (exec i (policyClear (beginStep al rest s))) := by
  rw [step_packet hi, runRecord, hd]

/-- `exec` reaches no fault, from any state (R63). -/
theorem exec_ne_fault (i : Instr) (s : State) (e : Fault) : exec i s ≠ .fault e := by
  rcases exec_effect i s with ⟨t, h, -⟩ | ⟨h, -⟩ <;> simp [h]

theorem failed_eq_false_iff {s : State} : failed s = false ↔ ∀ e, s.out ≠ some (.error e) := by
  rw [← Bool.not_eq_true, failed_iff, not_exists]

/-- Settles O15: the three outcomes of `exec`, each carried through the end of the step. -/
theorem stepRunsTheDecodedInstruction : Obligations.StepRunsTheDecodedInstruction := by
  intro s r al rest i hi hd start cleared
  have hcleared : cleared = policyClear start := by
    rw [policyClear_eq]
    by_cases h : s.params.pcfPolicy = .perPacket <;> simp [cleared, start, h]
  have hstep : step s = mapNext (finishStep start) (exec i cleared) := hcleared ▸ step_of_decode hi hd
  refine ⟨fun t ht => ?_, fun e he => by rw [hstep, he, mapNext_refused], exec_ne_fault i cleared⟩
  rw [hstep, ht, mapNext_next]
  exact ⟨fun e he => by rw [finishStep_of_failed (failed_iff.2 ⟨e, he⟩)],
    fun hok => by rw [finishStep_of_ok (failed_eq_false_iff.2 hok)]; rfl⟩

/-! ### The no-ops (R134, R136) -/

/-- A foreign command, or a code that is none of the eight, selects `NOP` (R134, R136). -/
theorem opcodeOf_unrecognised {r : Record} (h : (packetByte r 0).toNat &&& 0x3F ≠ 0x09 ∨
    (packetByte r 1).toNat &&& 0x3F ∉ [1, 2, 6, 20, 24, 30, 31, 38]) : opcodeOf (decodeWord r) = .nop := by
  rw [commandAndCodeSelectTheInstruction r]
  rcases h with hcommand | hcode
  · exact if_neg hcommand
  · simp only [List.mem_cons, List.not_mem_nil, or_false, not_or] at hcode
    simp [hcode]

/-- Settles O17: such a record decodes to `NOP`, so only the policy clear and the frame are left of the step. -/
theorem unrecognisedPacketsAreNoOps : Obligations.UnrecognisedPacketsAreNoOps := by
  refine ⟨fun _ => rfl, fun s r al rest hi hlen hr => ?_⟩
  have hd : decode r = .ok .nop := by
    rw [decode_of_length hlen, decodePacket_eq, opcodeOf_unrecognised hr, instrOfRow]
  have hok : failed (policyClear (beginStep al rest s)) = false := failed_eq_false_iff.2 (by simp)
  refine ⟨hd, ?_⟩
  rw [step_of_decode hi hd, show ∀ u, exec .nop u = .next u from fun _ => rfl, mapNext_next, finishStep_of_ok hok,
    policyClear_eq]
  rfl

/-! ### How a packet ends (R139) -/

/-- Settles O19, by the cases of a step on a record: the length excludes the malformed one, the host's duty the refusal. -/
theorem everyPacketEndsInOkOrAllocationFailure : Obligations.EveryPacketEndsInOkOrAllocationFailure := by
  intro s r al rest hi hlen hfresh
  rcases step_record_cases hi with ⟨hne, -⟩ | ⟨-, u, -, -, e⟩ | ⟨-, hshifts, hdeny, e⟩ | ⟨-, -, hheld, -⟩
  · exact absurd hlen hne
  · exact ⟨_, e, .inl rfl⟩
  · exact ⟨_, e, .inr ⟨rfl, hdeny, hshifts⟩⟩
  · exact absurd hfresh hheld

/-! ### What a step takes from the host (R130, R292) -/

/-- Settles O21, by the cases of a step: each one leaves the rest of the input, and no instruction touches it. -/
theorem stepTakesOneHostAction : Obligations.StepTakesOneHostAction := by
  intro s t hstep
  cases step_next hstep with
  | idle hi => simp [hi]
  | reset hi | failed hi => simp [hi]
  | completed hi hu =>
    obtain ⟨hparams, hinput, -⟩ := hu.const
    simp [hi, hparams, hinput]

/-! ### The flag (R138, R183) -/

/-- A palette load sets the flag, every other instruction leaves it (R183). -/
theorem ExecEffect.pcf_eq {i : Instr} {s t : State} (h : ExecEffect i s t) : t.pcf = (s.pcf || isPaletteLoad i) := by
  cases hl : isPaletteLoad i with
  | false => rw [(h.pal_pcf hl).2, Bool.or_false]
  | true =>
    cases h with
    | palette => simp
    | unchanged h' | pixels h' | offsets h' | denied h' | swapped h' => simp [hl] at h'

/-- Settles O22, by the cases of a step on a record: an error keeps the flag, a completed instruction has its effect on
the flag the policy left. -/
theorem paletteFlagFollowsThePolicy : Obligations.PaletteFlagFollowsThePolicy := by
  intro s t r al rest hi hstep
  rcases step_record_cases hi with ⟨-, e⟩ | ⟨hlen, u, hu, -, e⟩ | ⟨-, -, -, e⟩ | ⟨-, -, -, e⟩ <;>
    simp only [e, Host.Outcome.next.injEq, reduceCtorEq] at hstep <;> subst hstep
  · exact ⟨fun _ => rfl, fun hok => absurd rfl (hok _)⟩
  · have hpcf :
        u.pcf = ((if s.params.pcfPolicy = .perPacket then false else s.pcf) || isPaletteLoad (decodePacket r)) := by
      rw [hu.pcf_eq, policyClear_pcf, beginStep_params, beginStep_pcf]
    exact ⟨fun ⟨_, herr⟩ => by simp at herr, fun _ => ⟨hlen, fun hp => by simp [hpcf, hp], fun hp => by simp [hpcf, hp]⟩⟩
  · exact ⟨fun _ => rfl, fun hok => absurd rfl (hok _)⟩

end Sys2Proof.Machine
end

section
/-! The presets (spec/41_preset.md): `MEMPRESET` fills the canvas (R160), `BORDERPRESET` its border (R162), each only where
its packet's repeat field is 0 (R161). -/

namespace Sys2Proof.Machine

/-- Every pixel of the canvas lies in the whole-canvas rectangle (R69). -/
theorem rectHas_wholeCanvas_of_lt {x y : Nat} (hx : x < fullWidth) (hy : y < fullHeight) :
    rectHas wholeCanvas x y = true := by
  simpa [rectHas_iff, wholeCanvas] using And.intro hx hy

/-- The border in the numbers of R162. -/
theorem onBorder_iff_bounds {x y : Nat} : onBorder x y ↔ y < 12 ∨ 204 ≤ y ∨ x < 6 ∨ 294 ≤ x := Iff.rfl

/-- Settles O26: the fill of the whole canvas always completes, and a nonzero repeat skips it. -/
theorem memPresetFillsTheCanvas : Obligations.MemPresetFillsTheCanvas := by
  refine ⟨fun _ => decode_memPreset, fun color s => ⟨?_, fun rep hrep => ?_⟩⟩
  · obtain ⟨b, hfill, hhandle, hpad, hpixels, hframe, -⟩ :=
      rectFill_total (b := s.live) (t := wholeCanvas) (by decide) color
    refine ⟨b, ?_, hhandle, hpad, fun x hx y hy => ?_, hframe⟩
    · rw [exec_memPreset, execMemPreset_zero]
      exact storeLive_eq_next.2 ⟨b, hfill, rfl⟩
    · rw [hpixels x hx y, if_pos (rectHas_wholeCanvas_of_lt hx hy), pixelByte_toNat]
  · rw [exec_memPreset, execMemPreset_repeated hrep]

/-- Settles O27: the four fills always complete and write the border alone, and a nonzero repeat skips them. -/
theorem borderPresetFillsTheBorder : Obligations.BorderPresetFillsTheBorder := by
  refine ⟨fun _ => decode_borderPreset, fun color s => ⟨?_, fun rep hrep => ?_⟩⟩
  · obtain ⟨b, hfill, hhandle, hpad, hpixels, hframe, -⟩ := fillBorder_total s.live color
    refine ⟨b, ?_, hhandle, hpad, fun x hx y hy => ⟨fun hborder => ?_, fun hinterior => ?_⟩, hframe⟩
    · rw [exec_borderPreset, execBorderPreset_zero]
      exact storeLive_eq_next.2 ⟨b, hfill, rfl⟩
    · rw [hpixels x hx y hy, if_pos (onBorder_iff_bounds.2 hborder), pixelByte_toNat]
    · have hoff : ¬ onBorder x y := by rw [onBorder_iff_bounds]; omega
      rw [hpixels x hx y hy, if_neg hoff]
  · rw [exec_borderPreset, execBorderPreset_repeated hrep]

end Sys2Proof.Machine
end

section
/-! The palette loads (spec/42_palette.md): `ColorDecode` (R182), `PALLO` (R180), `PALHI` (R181), and the two in a row
(R184). -/

namespace Sys2Proof.Machine

/-! ### ColorDecode (R182) -/

/-- The channel of an entry at bit `start`: the same four bits of the colour `(hi << 6) | (lo & 0x3F)`, scaled. -/
theorem scaleChannel_colorEntry_toNat (hi lo : Byte) {start : Nat} (h : start ≤ 8) :
    (scaleChannel ((colorEntry hi lo).extractLsb' start 4)).toNat =
      17 * ((hi.toNat <<< 6 ||| lo.toNat &&& 0x3F) >>> start &&& 0xF) := by
  rw [scaleChannel_toNat, colorEntry, BitVec.extractLsb'_extractLsb'_of_le (by omega),
    BitVec.extractLsb'_toNat, assembleColor_toNat, show (0xF : Nat) = 2 ^ 4 - 1 from rfl,
    Nat.and_two_pow_sub_one_eq_mod]

/-- Settles O28: the three channels stand at bits 8, 4 and 0 of the entry. -/
theorem colorDecodeScalesBySeventeen : Obligations.ColorDecodeScalesBySeventeen := fun hi lo =>
  ⟨scaleChannel_colorEntry_toNat hi lo (start := 8) (by decide),
    scaleChannel_colorEntry_toNat hi lo (start := 4) (by decide),
    scaleChannel_colorEntry_toNat hi lo (start := 0) (by decide)⟩

/-! ### What a load writes and what it keeps (R180, R181) -/

section
variable (p : Palette) (rgb : ColorEntries) (k : Fin 8)

theorem loadLow_getElem_low : (loadLow p rgb)[k.val] = rgbOf rgb[k] :=
  (getElem_loadLow p rgb ⟨k, by omega⟩).trans (dif_pos k.isLt)

theorem loadLow_getElem_high : (loadLow p rgb)[8 + k.val] = p[8 + k.val] :=
  (getElem_loadLow p rgb ⟨8 + k, by omega⟩).trans (dif_neg (by simp))

theorem loadHigh_getElem_low : (loadHigh p rgb)[k.val] = p[k.val] :=
  (getElem_loadHigh p rgb ⟨k, by omega⟩).trans (dif_neg (by simp))

theorem loadHigh_getElem_high : (loadHigh p rgb)[8 + k.val] = rgbOf rgb[k] := by
  have hentry := (getElem_loadHigh p rgb ⟨8 + k, by omega⟩).trans (dif_pos (by simp))
  simpa using hentry

end

/-- The colour of a packet's entry is `ColorDecode` of its two data bytes (R97, R182). -/
theorem rgbOf_colorEntries_getElem (r : Record) (k : Fin 8) :
    rgbOf (colorEntries r)[k] = colorDecode (dataByte r (2 * k)) (dataByte r (2 * k + 1)) :=
  congrArg rgbOf (colorEntries_getElem r k)

/-- Settles O29: the load writes the low half and keeps the high one; a packet's entries are its decoded bytes. -/
theorem palLoLoadsTheLowEntries : Obligations.PalLoLoadsTheLowEntries :=
  ⟨fun rgb s => ⟨_, exec_palLo rgb s, loadLow_getElem_low s.pal rgb, loadLow_getElem_high s.pal rgb⟩,
    fun r s h => ⟨_, _, decode_palLo h, exec_palLo _ s,
      fun k => (loadLow_getElem_low s.pal _ k).trans (rgbOf_colorEntries_getElem r k), loadLow_getElem_high s.pal _⟩⟩

/-- Settles O30: the load writes the high half and keeps the low one; a packet's entries are its decoded bytes. -/
theorem palHiLoadsTheHighEntries : Obligations.PalHiLoadsTheHighEntries :=
  ⟨fun rgb s => ⟨_, exec_palHi rgb s, loadHigh_getElem_high s.pal rgb, loadHigh_getElem_low s.pal rgb⟩,
    fun r s h => ⟨_, _, decode_palHi h, exec_palHi _ s,
      fun k => (loadHigh_getElem_high s.pal _ k).trans (rgbOf_colorEntries_getElem r k), loadHigh_getElem_low s.pal _⟩⟩

/-! ### Both loads (R184) -/

/-- After a low and then a high load no entry of the palette before is left. -/
theorem loadHigh_loadLow_getElem (p : Palette) (lo hi : ColorEntries) (k : Fin 8) :
    (loadHigh (loadLow p lo) hi)[k.val] = rgbOf lo[k] ∧ (loadHigh (loadLow p lo) hi)[8 + k.val] = rgbOf hi[k] :=
  ⟨(loadHigh_getElem_low _ hi k).trans (loadLow_getElem_low p lo k), loadHigh_getElem_high _ hi k⟩

/-- Every entry of all-zero data is black. -/
theorem rgbOf_replicate_zero (k : Fin 8) : rgbOf (Vector.replicate 8 (0 : Rgb12))[k] = ⟨0, 0, 0⟩ :=
  congrArg rgbOf (Vector.getElem_replicate k.isLt)

/-- Settles O31: the high load keeps what the low load wrote; zero data is black in either half. -/
theorem loadingBothHalvesReplacesThePalette : Obligations.LoadingBothHalvesReplacesThePalette := by
  refine ⟨fun lo hi s => ⟨_, _, exec_palLo lo s, exec_palHi hi _, rfl, loadHigh_loadLow_getElem s.pal lo hi⟩,
    fun s => ⟨_, _, exec_palLo _ s, exec_palHi _ _, rfl, fun i => ?_⟩⟩
  have hentry := loadHigh_loadLow_getElem s.pal (Vector.replicate 8 0) (Vector.replicate 8 0)
  refine Fin.addCases (m := 8) (n := 8) (fun k => ?low) (fun k => ?high) i
  case low => exact (hentry k).1.trans (rgbOf_replicate_zero k)
  case high => exact (hentry k).2.trans (rgbOf_replicate_zero k)

end Sys2Proof.Machine
end

section
/-! The tiles (spec/43_tile.md): the clip test (R201, R205), the place of a tile's 72 pixels (R200, R204), what `TILE`
(R202) and `TILEX` (R203) write to them, and that two equal `TILEX` in a row cancel (R206). -/

namespace Sys2Proof.Machine

/-! ### The clip test (R201) -/

/-- The tile is painted exactly when both of its axes fit. -/
theorem tileClipped_eq_false_iff {rowf : BitVec 5} {colf : BitVec 6} {s : State} :
    tileClipped rowf colf s = false ↔
      rowf.toNat * 12 + s.vs.toNat ≤ 204 ∧ colf.toNat * 6 + s.hs.toNat ≤ 294 := by
  rw [← Bool.not_eq_true, tileClipped_iff, not_or, Nat.not_lt, Nat.not_lt, tileRow, tileCol]

/-- Settles O32: the clip test in the numbers of R201, and a clipped tile is painted in neither mode. -/
theorem clippedTilesChangeNothing : Obligations.ClippedTilesChangeNothing := fun c0 c1 rowf colf bm s =>
  ⟨tileClipped_iff rowf colf s, fun hclip =>
    ⟨paintTile_clipped hclip (fun _ v => v) c0 c1 bm, paintTile_clipped hclip (fun p v => p ^^^ v) c0 c1 bm⟩⟩

/-- Settles O36: on either axis an offset that is not 0 takes the last cell, 17 · 12 = 204 and 49 · 6 = 294. -/
theorem clipTableOfTheOffsets : Obligations.ClipTableOfTheOffsets := by
  intro rowf colf s hhs hvs
  have hvs_zero : s.vs = 0 ↔ s.vs.toNat = 0 := BitVec.toNat_inj.symm
  have hhs_zero : s.hs = 0 ↔ s.hs.toNat = 0 := BitVec.toNat_inj.symm
  simp only [tileClipped_eq_false_iff, hvs_zero, hhs_zero]
  split_ifs <;> omega

/-! ### The place of a tile (R200, R204) -/

/-- The offsets of a rectangle no wider than the stride are those of its pixels. -/
theorem offsetInRect_iff_exists_pixelOffset {stride : Nat} {t : Rect} (ht : t.x + t.w ≤ stride) {a : Nat} :
    offsetInRect stride t a = true ↔ ∃ i < t.w, ∃ j < t.h, a = pixelOffset stride (t.x + i) (t.y + j) := by
  constructor
  · intro ha
    rw [offsetInRect, rectHas_iff] at ha
    refine ⟨a % stride - t.x, by omega, a / stride - t.y, by omega, ?_⟩
    rw [Nat.add_sub_of_le ha.1.1, Nat.add_sub_of_le ha.2.1, pixelOffset_of_offset]
  · rintro ⟨i, hi, j, hj, rfl⟩
    rw [offsetInRect_pixelOffset t _ (by omega), rectHas_iff]
    omega

/-- Settles O35: the tile's rectangle fits the canvas, so its offsets are those of its pixels. -/
theorem paintedTilesStayInTheCanvas : Obligations.PaintedTilesStayInTheCanvas := by
  intro rowf colf s hpaint
  obtain ⟨hw, hh⟩ := rectFits_iff.1 (rectFits_tileRect hpaint)
  refine ⟨fun i hi j hj => ?_, fun a => ?_⟩
  · simp only [tileRect, fullWidth, tileWidth, fullHeight, tileHeight] at hw hh
    omega
  · rw [offsetInRect_iff_exists_pixelOffset (Nat.le_trans hw (fullWidth_le_stride s.live))]
    simp only [tileRect, pixelOffset, Nat.add_right_comm _ _ (BitVec.toNat _)]

/-! ### The 72 pixels of a painted tile (R202, R203) -/

/-- The byte of a tile's pixel is the number of the colour its bitmap bit selects. -/
theorem tileColor_toNat (c0 c1 : Color) (bm : Bitmap) (i : Nat) (j : Fin 12) :
    (tileColor c0 c1 bm i j).toNat = if bm[j].toNat.testBit (5 - i) then c1.toNat else c0.toNat := by
  rw [tileColor, pixelByte_toNat, tileBit_eq_testBit, apply_ite BitVec.toNat]

/-- Both tile instructions at once: a painted tile completes with only the live buffer's pixels replaced, pixel `(i, j)` of
the tile by `mode` of its value before and its colour; no byte outside the tile changes. -/
theorem paintTile_pixels {rowf : BitVec 5} {colf : BitVec 6} {s : State}
    (hrow : rowf.toNat * 12 + s.vs.toNat ≤ 204) (hcol : colf.toNat * 6 + s.hs.toNat ≤ 294)
    (mode : Byte → Byte → Byte) (c0 c1 : Color) (bm : Bitmap) :
    ∃ b, paintTile mode c0 c1 rowf colf bm s = .next { s with live := b } ∧
      b.handle = s.live.handle ∧ b.pad = s.live.pad ∧
      (∀ i < 6, ∀ j : Fin 12,
        pixelAt b (colf.toNat * 6 + i + s.hs.toNat) (rowf.toNat * 12 + j + s.vs.toNat) =
          mode (pixelAt s.live (colf.toNat * 6 + i + s.hs.toNat) (rowf.toNat * 12 + j + s.vs.toNat))
            (tileColor c0 c1 bm i j)) ∧
      (∀ a, offsetInRect s.live.stride (tileRect rowf colf s) a = false → readByte b.mem a = readByte s.live.mem a) := by
  obtain ⟨b, e, hhandle, hpad, hpixels, hframe, -⟩ :=
    paintTile_painted (tileClipped_eq_false_iff.2 ⟨hrow, hcol⟩) mode c0 c1 bm
  refine ⟨b, e, hhandle, hpad, fun i hi j => ?_, hframe⟩
  rw [Nat.add_right_comm _ i, Nat.add_right_comm _ j.val]
  have hin : rectHas (tileRect rowf colf s)
      (colf.toNat * 6 + s.hs.toNat + i) (rowf.toNat * 12 + s.vs.toNat + j) = true :=
    rectHas_iff.2 ⟨⟨Nat.le_add_right _ _, Nat.add_lt_add_left hi _⟩, Nat.le_add_right _ _, Nat.add_lt_add_left j.isLt _⟩
  rw [hpixels _ (by simp only [fullWidth]; omega), if_pos hin]
  simp only [tileRect, tileCol, tileRow, Nat.add_sub_cancel_left]

/-- Settles O33: the painter with the mode that keeps the new colour. -/
theorem tilePaintsItsPixels : Obligations.TilePaintsItsPixels := by
  refine ⟨fun _ => decode_tile, fun c0 c1 rowf colf bm s => ⟨fun hclip => ?_, fun hrow hcol => ?_⟩⟩
  · rw [exec_tile, paintTile_clipped ((tileClipped_iff rowf colf s).2 hclip)]
  · obtain ⟨b, e, hhandle, hpad, hpixels, hframe⟩ := paintTile_pixels hrow hcol (fun _ v => v) c0 c1 bm
    exact ⟨b, e, hhandle, hpad, fun i hi j => by rw [hpixels i hi j, tileColor_toNat], hframe⟩

/-- Settles O34: the painter with the mode that XORs the new colour into the old. -/
theorem tileXXorsItsPixels : Obligations.TileXXorsItsPixels := by
  refine ⟨fun _ => decode_tileX, fun c0 c1 rowf colf bm s => ⟨fun hclip => ?_, fun hrow hcol => ?_⟩⟩
  · rw [exec_tileX, paintTile_clipped ((tileClipped_iff rowf colf s).2 hclip)]
  · obtain ⟨b, e, hhandle, hpad, hpixels, hframe⟩ := paintTile_pixels hrow hcol (fun p v => p ^^^ v) c0 c1 bm
    exact ⟨b, e, hhandle, hpad, fun i hi j => by rw [hpixels i hi j, BitVec.toNat_xor, tileColor_toNat], hframe⟩

/-! ### Painting the same tile twice (R206) -/

/-- The stride depends on the padding only (R61). -/
theorem stride_congr {b b' : Buffer} (hpad : b.pad = b'.pad) : b.stride = b'.stride :=
  congrArg (fullWidth + ·) hpad

/-- Every byte after a painted tile: those of its rectangle by `mode`, the rest as before. -/
theorem paintTile_bytes {rowf : BitVec 5} {colf : BitVec 6} {s : State} (hpaint : tileClipped rowf colf s = false)
    (mode : Byte → Byte → Byte) (c0 c1 : Color) (bm : Bitmap) :
    ∃ b, paintTile mode c0 c1 rowf colf bm s = .next (setLive b s) ∧
      b.handle = s.live.handle ∧ b.pad = s.live.pad ∧
      (∀ a, readByte b.mem a =
        if offsetInRect s.live.stride (tileRect rowf colf s) a then
          mode (readByte s.live.mem a) (tileColor c0 c1 bm (a % s.live.stride - (tileRect rowf colf s).x)
            (a / s.live.stride - (tileRect rowf colf s).y))
        else readByte s.live.mem a) ∧
      (s.live.canonical → b.canonical) := by
  obtain ⟨b, e, hhandle, hpad, hpixels, hframe, hcanonical, -⟩ := paintTile_painted hpaint mode c0 c1 bm
  refine ⟨b, e, hhandle, hpad, fun a => ?_, hcanonical⟩
  split
  next hin =>
    have hx : a % s.live.stride < fullWidth :=
      Nat.lt_of_lt_of_le (rectHas_iff.1 hin).1.2 (rectFits_iff.1 (rectFits_tileRect hpaint)).1
    have hpixel := (hpixels _ hx (a / s.live.stride)).trans (if_pos hin)
    rwa [pixelAt, pixelAt, stride_congr hpad, pixelOffset_of_offset] at hpixel
  next hout => exact hframe a (Bool.eq_false_of_not_eq_true hout)

/-- Canonical buffers with the same handle, padding and bytes are the same buffer. -/
theorem buffer_ext_of_bytes {b b' : Buffer} (hb : b.canonical) (hb' : b'.canonical) (hhandle : b.handle = b'.handle)
    (hpad : b.pad = b'.pad) (hbytes : ∀ a, readByte b.mem a = readByte b'.mem a) : b = b' :=
  buffer_ext_of_pixels hb hb' hhandle hpad fun x _ y _ => by rw [pixelAt, pixelAt, stride_congr hpad, hbytes]

/-- Where a second application of `mode` with the same colour takes the first back, painting a tile twice restores every
byte, and a canonical live buffer altogether. -/
theorem paintTile_twice {mode : Byte → Byte → Byte} (hmode : ∀ p v, mode (mode p v) v = p)
    {rowf : BitVec 5} {colf : BitVec 6} {s : State} (hpaint : tileClipped rowf colf s = false)
    (c0 c1 : Color) (bm : Bitmap) :
    ∃ b b', paintTile mode c0 c1 rowf colf bm s = .next (setLive b s) ∧
      paintTile mode c0 c1 rowf colf bm (setLive b s) = .next (setLive b' s) ∧
      (∀ a, readByte b'.mem a = readByte s.live.mem a) ∧ (s.live.canonical → b' = s.live) := by
  obtain ⟨b, e, hhandle, hpad, hbytes, hcanonical⟩ := paintTile_bytes hpaint mode c0 c1 bm
  obtain ⟨b', e', hhandle', hpad', hbytes', hcanonical'⟩ :=
    paintTile_bytes (s := setLive b s) hpaint mode c0 c1 bm
  have hrect : tileRect rowf colf (setLive b s) = tileRect rowf colf s := rfl
  have hrestored : ∀ a, readByte b'.mem a = readByte s.live.mem a := fun a => by
    rw [hbytes', hrect, setLive_live, stride_congr hpad, hbytes]
    split
    · rw [hmode]
    · rfl
  exact ⟨b, b', e, e', hrestored, fun hlive =>
    buffer_ext_of_bytes (hcanonical' (hcanonical hlive)) hlive (hhandle'.trans hhandle) (hpad'.trans hpad) hrestored⟩

/-- Settles O37: a clipped tile changes nothing either time; a painted one is taken back, `(p ^^^ v) ^^^ v` being `p`. -/
theorem equalXorTilesCancel : Obligations.EqualXorTilesCancel := by
  intro c0 c1 rowf colf bm s
  simp only [exec_tileX]
  cases hclip : tileClipped rowf colf s with
  | true =>
    have hkeep := paintTile_clipped hclip (fun p v => p ^^^ v) c0 c1 bm
    exact ⟨s, s, hkeep, hkeep, fun _ => rfl, rfl, fun _ => rfl⟩
  | false =>
    have hxor : ∀ p v : Byte, p ^^^ v ^^^ v = p := fun p v => by
      rw [BitVec.xor_assoc, BitVec.xor_self, BitVec.xor_zero]
    obtain ⟨b, b', e, e', hbytes, hlive⟩ := paintTile_twice hxor hclip c0 c1 bm
    exact ⟨_, _, e, e', hbytes, rfl, fun hcanonical => congrArg (setLive · s) (hlive hcanonical)⟩

end Sys2Proof.Machine
end

section
/-! The scrolls (spec/44_scroll.md): the net shift (R231), the closed form of the new canvas (R244) and its consequences for
corners (R239), rotations (R245) and tiles (R247), and which steps move the offsets (R232, R246) and request buffers
(R248). -/

namespace Sys2Proof.Machine

/-! ### The net shift (R231, R242) -/

theorem hdir_of_selected {hcmd : BitVec 2} (h : hcmd = 1 ∨ hcmd = 2) : hdir hcmd = 6 ∨ hdir hcmd = -6 := by
  rcases h with rfl | rfl <;> decide

theorem vdir_of_selected {vcmd : BitVec 2} (h : vcmd = 1 ∨ vcmd = 2) : vdir vcmd = 12 ∨ vdir vcmd = -12 := by
  rcases h with rfl | rfl <;> decide

/-- Codes 0 and 3 select no direction (R100, decision D3). -/
theorem hdir_of_unselected {hcmd : BitVec 2} (h : hcmd = 0 ∨ hcmd = 3) : hdir hcmd = 0 := by
  rcases h with rfl | rfl <;> decide

theorem vdir_of_unselected {vcmd : BitVec 2} (h : vcmd = 0 ∨ vcmd = 3) : vdir vcmd = 0 := by
  rcases h with rfl | rfl <;> decide

/-- With no direction selected the net shift is the change of the offset. -/
theorem hinc_of_unselected {hcmd : BitVec 2} (h : hcmd = 0 ∨ hcmd = 3) (hoff hs : BitVec 3) :
    hinc hcmd hoff hs = (hoff.toNat : Int) - hs.toNat := by
  rw [hinc, hdir_of_unselected h, Int.zero_add]

theorem vinc_of_unselected {vcmd : BitVec 2} (h : vcmd = 0 ∨ vcmd = 3) (voff vs : BitVec 4) :
    vinc vcmd voff vs = (voff.toNat : Int) - vs.toNat := by
  rw [vinc, vdir_of_unselected h, Int.zero_add]

/-- With the offset kept the net shift is the directional step. -/
theorem hinc_self (hcmd : BitVec 2) (hs : BitVec 3) : hinc hcmd hs hs = hdir hcmd := by
  rw [hinc, Int.sub_self, Int.add_zero]

theorem vinc_self (vcmd : BitVec 2) (vs : BitVec 4) : vinc vcmd vs vs = vdir vcmd := by
  rw [vinc, Int.sub_self, Int.add_zero]

/-- Settles O38: an offset change is within -5..5 and -11..11, smaller than the steps 6 and 12. -/
theorem netShiftIsBounded : Obligations.NetShiftIsBounded := by
  intro hcmd vcmd hoff hs voff vs hhoff hhs hvoff hvs
  have hh := hdir_cases hcmd
  have hv := vdir_cases vcmd
  refine ⟨⟨rfl, ?_⟩, ⟨rfl, ?_⟩, fun hsel => ?_, fun hsel => ?_⟩
  · rw [hinc]; omega
  · rw [vinc]; omega
  · have := hdir_of_selected hsel
    rw [hinc]; omega
  · have := vdir_of_selected hsel
    rw [vinc]; omega

/-- Settles O39: neither instruction asks the host. -/
theorem zeroShiftScrollsChangeOnlyTheOffsets : Obligations.ZeroShiftScrollsChangeOnlyTheOffsets :=
  fun _ _ _ _ _ _ hh hv => ⟨scroll_zero ⟨hh, hv⟩, scroll_zero ⟨hh, hv⟩⟩

/-! ### The scrolls with a granted buffer (R241 to R244) -/

/-- Settles O42: the granted outcome of the scroll, filled with the colour. -/
theorem scrollPShiftsAndFillsFlat : Obligations.ScrollPShiftsAndFillsFlat := by
  refine ⟨fun _ => decode_scrollP, fun color hcmd hoff vcmd voff s b hshift hgrant hfresh => ?_⟩
  obtain ⟨n, e, hhandle, hpad, hpixels, -, hbytes⟩ := scroll_grant (mode := .preset color) hshift hgrant hfresh
  exact ⟨n, e, hhandle, hpad, hpixels, hbytes⟩

/-- Settles O43: the granted outcome of the scroll, filled by copying. -/
theorem scrollCShiftsAndWraps : Obligations.ScrollCShiftsAndWraps := by
  refine ⟨fun _ => decode_scrollC, fun color hcmd hoff vcmd voff s b hshift hgrant hfresh => ?_⟩
  obtain ⟨n, e, hhandle, hpad, hpixels, -, hbytes⟩ := scroll_grant (mode := .copy) hshift hgrant hfresh
  exact ⟨n, e, hhandle, hpad, hpixels, hbytes⟩

/-! ### The closed form, case by case (R244) -/

section
variable {mode : FillMode} {hi vi : Int} {o : Buffer} {x y : Nat}

/-- A pixel of the horizontal band comes from the opposite edge of the same row, the corners included (R238, R239). -/
theorem scrolledPixel_of_horizontalBand (hh : hi.natAbs ≤ 300) (hx : x < 300)
    (hband : (0 < hi ∧ (x : Int) < hi) ∨ (hi < 0 ∧ 300 + hi ≤ (x : Int))) :
    scrolledPixel mode hi vi o x y = bandPixel mode o (((x : Int) - hi) % 300) y := by
  rw [scrolledPixel]
  rcases hband with hleft | hright
  · rw [if_pos hleft, show ((x : Int) - hi) % 300 = x + 300 - hi by omega]
  · rw [if_neg (by omega), if_pos hright, show ((x : Int) - hi) % 300 = x - 300 - hi by omega]

/-- With no horizontal shift, a pixel of the vertical band comes from the opposite edge of the same column (R237). -/
theorem scrolledPixel_of_verticalBand (hv : vi.natAbs ≤ 216) (hy : y < 216)
    (hband : (0 < vi ∧ (y : Int) < vi) ∨ (vi < 0 ∧ 216 + vi ≤ (y : Int))) :
    scrolledPixel mode 0 vi o x y = bandPixel mode o x (((y : Int) - vi) % 216) := by
  rw [scrolledPixel, if_neg (by omega), if_neg (by omega)]
  rcases hband with htop | hbottom
  · rw [if_pos htop, show ((y : Int) - vi) % 216 = y + 216 - vi by omega]
  · rw [if_neg (by omega), if_pos hbottom, show ((y : Int) - vi) % 216 = y - 216 - vi by omega]

/-- A pixel whose source lies inside the old canvas is that source, whatever the fill (R236). -/
theorem scrolledPixel_of_source_inside (hx : 0 ≤ (x : Int) - hi ∧ (x : Int) - hi < 300)
    (hy : 0 ≤ (y : Int) - vi ∧ (y : Int) - vi < 216) :
    scrolledPixel mode hi vi o x y = pixelAt o ((x : Int) - hi).toNat ((y : Int) - vi).toNat := by
  rw [scrolledPixel, if_neg (by omega), if_neg (by omega), if_neg (by omega), if_neg (by omega)]

/-- A copy scroll on the horizontal axis alone rotates every row (R245). -/
theorem scrolledPixel_copy_horizontal (hh : hi.natAbs ≤ 300) (hx : x < 300) (hy : y < 216) :
    scrolledPixel .copy hi 0 o x y = pixelAt o (((x : Int) - hi) % 300).toNat y := by
  by_cases hband : (0 < hi ∧ (x : Int) < hi) ∨ (hi < 0 ∧ 300 + hi ≤ (x : Int))
  · exact scrolledPixel_of_horizontalBand hh hx hband
  · rw [scrolledPixel_of_source_inside (by omega) (by omega), Int.sub_zero, Int.toNat_natCast,
      Int.emod_eq_of_lt (by omega) (by omega)]

/-- A copy scroll on the vertical axis alone rotates every column (R245). -/
theorem scrolledPixel_copy_vertical (hv : vi.natAbs ≤ 216) (hx : x < 300) (hy : y < 216) :
    scrolledPixel .copy 0 vi o x y = pixelAt o x (((y : Int) - vi) % 216).toNat := by
  by_cases hband : (0 < vi ∧ (y : Int) < vi) ∨ (vi < 0 ∧ 216 + vi ≤ (y : Int))
  · exact scrolledPixel_of_verticalBand hv hy hband
  · rw [scrolledPixel_of_source_inside (by omega) (by omega), Int.sub_zero, Int.toNat_natCast,
      Int.emod_eq_of_lt (by omega) (by omega)]

end

/-! ### What a scroll that is not denied leaves (R232, R233, R244) -/

/-- Both kinds of completed scroll at once: the offsets are the operands and the canvas is the closed form, of which a zero
net shift is the case that keeps every pixel. -/
theorem scroll_next_of_not_denied {mode : FillMode} {hcmd : BitVec 2} {hoff : BitVec 3} {vcmd : BitVec 2}
    {voff : BitVec 4} {s t : State} (ha : s.alloc ≠ .deny) (h : scroll mode hcmd hoff vcmd voff s = .next t) :
    t.hs = hoff ∧ t.vs = voff ∧ ∀ x < 300, ∀ y < 216,
      pixelAt t.live x y = scrolledPixel mode (hinc hcmd hoff s.hs) (vinc vcmd voff s.vs) s.live x y := by
  by_cases hz : hinc hcmd hoff s.hs = 0 ∧ vinc vcmd voff s.vs = 0
  · rw [scroll_zero hz, Host.Outcome.next.injEq] at h
    subst h
    refine ⟨rfl, rfl, fun x hx y hy => ?_⟩
    rw [hz.1, hz.2, scrolledPixel_of_source_inside (by omega) (by omega)]
    simp
  · cases hal : s.alloc with
    | deny => exact absurd hal ha
    | grant b =>
      by_cases hheld : b.handle = s.live.handle
      · simp [scroll_held hz hal hheld] at h
      · obtain ⟨n, e, -, -, hpixels, -⟩ := scroll_grant (mode := mode) hz hal hheld
        rw [e, Host.Outcome.next.injEq] at h
        subst h
        exact ⟨rfl, rfl, hpixels⟩

/-- Settles O44: both scrolls at a pixel of the horizontal band, whatever the vertical shift. -/
theorem cornersTakeTheHorizontalBand : Obligations.CornersTakeTheHorizontalBand := by
  intro color hcmd hoff vcmd voff s t u x y hx hy hband ht hu ha
  rw [exec_scrollP] at ht
  rw [exec_scrollC] at hu
  obtain ⟨-, -, htpixels⟩ := scroll_next_of_not_denied ha ht
  obtain ⟨-, -, hupixels⟩ := scroll_next_of_not_denied ha hu
  have hh : (hinc hcmd hoff s.hs).natAbs ≤ 300 := Nat.le_trans (hinc_natAbs_le hcmd hoff s.hs) (by decide)
  rw [htpixels x hx y hy, hupixels x hx y hy, scrolledPixel_of_horizontalBand hh hx hband,
    scrolledPixel_of_horizontalBand hh hx hband]
  exact ⟨pixelByte_toNat color, rfl⟩

/-! ### Rotations (R245) -/

/-- A completed copy scroll with no vertical shift rotates every row of the live canvas. -/
theorem pixelAt_scroll_copy_horizontal {hcmd : BitVec 2} {hoff : BitVec 3} {vcmd : BitVec 2} {voff : BitVec 4}
    {s t : State} (ha : s.alloc ≠ .deny) (h : scroll .copy hcmd hoff vcmd voff s = .next t)
    (hv : vinc vcmd voff s.vs = 0) {x y : Nat} (hx : x < 300) (hy : y < 216) :
    pixelAt t.live x y = pixelAt s.live (((x : Int) - hinc hcmd hoff s.hs) % 300).toNat y := by
  obtain ⟨-, -, hpixels⟩ := scroll_next_of_not_denied ha h
  rw [hpixels x hx y hy, hv,
    scrolledPixel_copy_horizontal (Nat.le_trans (hinc_natAbs_le hcmd hoff s.hs) (by decide)) hx hy]

/-- A completed copy scroll with no horizontal shift rotates every column of the live canvas. -/
theorem pixelAt_scroll_copy_vertical {hcmd : BitVec 2} {hoff : BitVec 3} {vcmd : BitVec 2} {voff : BitVec 4}
    {s t : State} (ha : s.alloc ≠ .deny) (h : scroll .copy hcmd hoff vcmd voff s = .next t)
    (hh : hinc hcmd hoff s.hs = 0) {x y : Nat} (hx : x < 300) (hy : y < 216) :
    pixelAt t.live x y = pixelAt s.live x (((y : Int) - vinc vcmd voff s.vs) % 216).toNat := by
  obtain ⟨-, -, hpixels⟩ := scroll_next_of_not_denied ha h
  rw [hpixels x hx y hy, hh,
    scrolledPixel_copy_vertical (Nat.le_trans (vinc_natAbs_le vcmd voff s.vs) (by decide)) hx hy]

/-- Settles O45: the rotations by 6 and by -6 of a row of 300 undo each other. -/
theorem singleAxisCopyScrollRotates : Obligations.SingleAxisCopyScrollRotates := by
  refine ⟨fun color hcmd hoff vcmd voff s t ha ht => ?_, fun color color' s t u b ha ht hu x hx y hy => ?_⟩
  · rw [exec_scrollC] at ht
    exact ⟨fun hv _ x hx y hy => pixelAt_scroll_copy_horizontal ha ht hv hx hy,
      fun hh _ x hx y hy => pixelAt_scroll_copy_vertical ha ht hh hx hy⟩
  · rw [exec_scrollC] at ht hu
    have hright : hinc 1 s.hs s.hs = 6 := hinc_self 1 s.hs
    have hleft : hinc 2 t.hs t.hs = -6 := hinc_self 2 t.hs
    rw [pixelAt_scroll_copy_horizontal (by simp) hu (vinc_self 0 t.vs) hx hy, hleft,
      pixelAt_scroll_copy_horizontal ha ht (vinc_self 0 s.vs) (by omega) hy, hright]
    congr 1
    omega

/-! ### Content and tiles move together (R247) -/

/-- Settles O46: whatever the fill, the source of a pixel that stays on the canvas is the pixel moved back by the offset
change, and the tile's origin holds the offsets. -/
theorem offsetScrollsKeepTilesAligned : Obligations.OffsetScrollsKeepTilesAligned := by
  intro i color hcmd hoff vcmd voff s t hi hh hv ha ht
  obtain ⟨mode, hscroll⟩ : ∃ mode, scroll mode hcmd hoff vcmd voff s = .next t := by
    rcases hi with rfl | rfl
    · exact ⟨.preset color, ht⟩
    · exact ⟨.copy, ht⟩
  obtain ⟨hhs, hvs, hpixels⟩ := scroll_next_of_not_denied ha hscroll
  refine ⟨fun x y x' y' hx hy hx' hy' hdx hdy => ?_, fun rowf colf => ?_⟩
  · rw [hpixels x' hx' y' hy', hinc_of_unselected hh, vinc_of_unselected hv, ← hdx, ← hdy,
      scrolledPixel_of_source_inside (by omega) (by omega), Int.sub_sub_self, Int.sub_sub_self, Int.toNat_natCast,
      Int.toNat_natCast]
  · simp only [tileRect, hhs, hvs]
    omega

/-! ### The offsets of a step (R232, R246) -/

/-- A scroll that does not fail loads its operands, shifting or not. -/
theorem ExecEffect.offsets_of_scroll {i : Instr} {s t : State} (h : ExecEffect i s t) (hok : failed t = false)
    {hcmd hoff vcmd voff} (ho : scrollOperands i = some (hcmd, hoff, vcmd, voff)) : t.hs = hoff ∧ t.vs = voff := by
  cases h with
  | unchanged _ hnone | pixels _ hnone | palette _ hnone => simp [ho] at hnone
  | denied => simp at hok
  | offsets _ ho' | swapped _ ho' =>
    rw [ho] at ho'
    cases ho'
    exact ⟨rfl, rfl⟩

/-- Settles O23, by the cases of a step on a record: an error keeps the offsets, a completed scroll loads its operands,
and no other instruction touches them. -/
theorem onlyScrollsMoveTheOffsets : Obligations.OnlyScrollsMoveTheOffsets := by
  intro s t r al rest hi hstep
  rcases step_record_cases hi with ⟨-, e⟩ | ⟨-, u, hu, hok, e⟩ | ⟨-, -, -, e⟩ | ⟨-, -, -, e⟩ <;>
    simp only [e, Host.Outcome.next.injEq, reduceCtorEq] at hstep <;> subst hstep
  · exact ⟨fun _ => ⟨rfl, rfl⟩, fun hne => absurd rfl (hne _)⟩
  · refine ⟨fun ⟨_, herr⟩ => by simp at herr, fun _ => ?_⟩
    split
    next ho => exact hu.offsets_of_scroll hok ho
    next ho =>
      obtain ⟨hhs, hvs, -⟩ := hu.frame_of_no_scroll ho
      exact ⟨by simpa using hhs, by simpa using hvs⟩
  · exact ⟨fun _ => ⟨rfl, rfl⟩, fun hne => absurd rfl (hne _)⟩

/-- Settles O47: a dutiful host's grant leaves only the OK ending, and a scroll that ends so loads its operands. -/
theorem everyOffsetPairIsOneScrollAway : Obligations.EveryOffsetPairIsOneScrollAway := by
  intro s hoff voff b rest hhoff hvoff hfresh hi
  have hlen := encode_length (setOffInstr hoff voff)
  have hw : (setOffInstr hoff voff).WellFormed := by
    simpa [setOffInstr, Instr.WellFormed, Instr.wellFormed, offsetsInRange] using And.intro hhoff hvoff
  have hd : decodePacket (encode (setOffInstr hoff voff)) = setOffInstr hoff voff :=
    Except.ok.inj ((decode_of_length hlen).symm.trans (decodeOfEncodeIsTheInstruction _ hw))
  obtain ⟨t, hstep, hout | ⟨-, hdeny, -⟩⟩ := everyPacketEndsInOkOrAllocationFailure s _ _ rest hi hlen hfresh
  · have hoffsets := (onlyScrollsMoveTheOffsets s t _ _ rest hi hstep).2 (by simp [hout])
    rw [hd] at hoffsets
    exact ⟨t, hstep, hout, hoffsets⟩
  · cases hdeny

/-! ### The requests of a step (R248) -/

/-- A shifting scroll that does not fail was granted a buffer, which is live now; the one live before is released. -/
theorem ExecEffect.requests_of_shifts {i : Instr} {s t : State} (h : ExecEffect i s t) (hok : failed t = false)
    (hshifts : shifts i s) :
    ∃ b, s.alloc = .grant b ∧ t.events = s.events ++ [.acquire, .release s.live.handle] ∧
      t.live.handle = b.handle ∧ t.live.pad = b.pad := by
  obtain ⟨hcmd, hoff, vcmd, voff, ho, hnonzero⟩ := hshifts
  cases h with
  | unchanged _ hnone | pixels _ hnone | palette _ hnone => simp [ho] at hnone
  | denied => simp at hok
  | offsets _ ho' hzero =>
    rw [ho] at ho'
    cases ho'
    exact absurd hzero hnonzero
  | swapped _ _ _ ha _ hhandle hpad => exact ⟨_, ha, rfl, hhandle, hpad⟩

/-- Any other instruction issues no request and keeps the live handle and padding. -/
theorem ExecEffect.no_requests_of_not_shifts {i : Instr} {s t : State} (h : ExecEffect i s t) (hn : ¬ shifts i s) :
    t.events = s.events ∧ t.live.handle = s.live.handle ∧ t.live.pad = s.live.pad := by
  cases h with
  | unchanged | palette | offsets => exact ⟨rfl, rfl, rfl⟩
  | pixels _ _ _ hb => exact ⟨rfl, hb.handle, hb.pad⟩
  | denied _ hshifts => exact absurd hshifts hn
  | swapped _ ho hnonzero => exact absurd ⟨_, _, _, _, ho, hnonzero⟩ hn

/-- Settles O24, by the cases of a step on a record: only the shifting scroll makes requests, and it is granted where the
step completes, denied where it fails. -/
theorem onlyShiftingScrollsRequestBuffers : Obligations.OnlyShiftingScrollsRequestBuffers := by
  intro s t r al rest hi hstep
  have hstart : shifts (decodePacket r) (policyClear (beginStep al rest s)) ↔ shifts (decodePacket r) s :=
    shifts_congr (by simp) (by simp)
  rcases step_record_cases hi with ⟨hlen, e⟩ | ⟨hlen, u, hu, hok, e⟩ | ⟨hlen, hshifts, rfl, e⟩ | ⟨-, -, -, e⟩ <;>
    simp only [e, Host.Outcome.next.injEq, reduceCtorEq] at hstep <;> subst hstep
  · exact ⟨fun h => absurd h.1 hlen, fun _ => ⟨rfl, rfl, rfl⟩⟩
  · refine ⟨fun ⟨_, hshifts⟩ => ?_, fun hn => ?_⟩
    · obtain ⟨b, ha, hevents, hhandle, hpad⟩ := hu.requests_of_shifts hok (hstart.2 hshifts)
      obtain rfl : al = .grant b := by simpa using ha
      exact ⟨by simpa using hevents, hhandle, hpad⟩
    · simpa using hu.no_requests_of_not_shifts fun hshifts => hn ⟨hlen, hstart.1 hshifts⟩
  · exact ⟨fun _ => rfl, fun hn => absurd ⟨hlen, hshifts⟩ hn⟩

end Sys2Proof.Machine
end

section
/-! Errors (spec/60_exceptions.md): how a step on a record ends (R285), the two errors, a malformed packet (R281) and a
denied scroll (R282), the packet after an error (R286), and the grant the host's duty forbids (R289). -/

namespace Sys2Proof.Machine

/-! ### The two endings of a step (R285) -/

/-- Settles O18, by the cases of a step on a record: the completed one emits, the other two that answer are errors. -/
theorem stepEmitsFrameOrLeavesStateUnchanged : Obligations.StepEmitsFrameOrLeavesStateUnchanged := by
  intro s t r al rest hi hstep
  rcases step_record_cases hi with ⟨-, e⟩ | ⟨-, u, -, -, e⟩ | ⟨-, -, -, e⟩ | ⟨-, -, -, e⟩ <;>
    simp only [e, Host.Outcome.next.injEq, reduceCtorEq] at hstep <;> subst hstep
  · exact .inr ⟨_, rfl, rfl⟩
  · exact .inl rfl
  · exact .inr ⟨_, rfl, rfl⟩

/-! ### The malformed packet (R281) -/

/-- Settles O16: parsing fails before anything else is done, so the start of the step is all that is left of it. -/
theorem wrongLengthIsMalformedPacket : Obligations.WrongLengthIsMalformedPacket := by
  intro s r al rest hi hlen
  rw [step_packet hi, runRecord_malformed hlen]
  rfl

/-! ### The denied scroll (R282) and the packet after it (R286) -/

/-- A record that decodes has 24 bytes, and its instruction is that of its fields (R133). -/
theorem length_and_decodePacket_of_decode {r : Record} {i : Instr} (hd : decode r = .ok i) :
    r.length = packetSize ∧ decodePacket r = i := by
  by_cases hlen : r.length = packetSize
  · exact ⟨hlen, Except.ok.inj ((decode_of_length hlen).symm.trans hd)⟩
  · simp [decode_of_length_ne hlen] at hd

/-- A shifting scroll whose acquisition is denied cannot complete: a completed one was granted a buffer (R234). -/
theorem ExecEffect.failed_of_shifts_of_deny {i : Instr} {s t : State} (h : ExecEffect i s t) (hshifts : shifts i s)
    (hdeny : s.alloc = .deny) : failed t = true := by
  by_contra hok
  obtain ⟨b, hgrant, -⟩ := h.requests_of_shifts (by simpa using hok) hshifts
  simp [hdeny] at hgrant

/-- Settles O40, by the cases of a step on a record: the length, the need of a buffer and the answer exclude all but the
denied one. -/
theorem deniedScrollsFailWithoutEffect : Obligations.DeniedScrollsFailWithoutEffect := by
  intro s r rest i hi hd hshifts
  obtain ⟨hlen, rfl⟩ := length_and_decodePacket_of_decode hd
  rcases step_record_cases hi with ⟨hne, -⟩ | ⟨-, u, hu, hok, -⟩ | ⟨-, -, -, e⟩ | ⟨-, -, hheld, -⟩
  · exact absurd hlen hne
  · have hstart : shifts (decodePacket r) (policyClear (beginStep .deny rest s)) :=
      (shifts_congr (by simp) (by simp)).2 hshifts
    simp [hu.failed_of_shifts_of_deny hstart (by simp)] at hok
  · exact e
  · exact absurd trivial hheld

/-- What the last step put out and the answer it was given play no part in the next step on a record (R131, R286). -/
theorem step_congr_of_beginStep {s t : State} {r : Record} {al : Alloc} {rest : List HostAction}
    (hs : s.input = .packet r al :: rest) (ht : t.input = .packet r al :: rest)
    (h : beginStep al rest s = beginStep al rest t) : step s = step t := by
  rw [step_packet hs, step_packet ht, h]

/-- Settles O41: the denied scroll leaves only what the next step's start replaces, and that step, its buffer granted and
not held, can only end in OK. -/
theorem retriedScrollsShiftTheSame : Obligations.RetriedScrollsShiftTheSame := by
  intro s r b rest i hi hd hshifts hfresh
  have hdenied := deniedScrollsFailWithoutEffect s r _ i hi hd hshifts
  obtain ⟨u, hu, hout | ⟨-, hdeny, -⟩⟩ := everyPacketEndsInOkOrAllocationFailure
    { s with input := .packet r (.grant b) :: rest } r (.grant b) rest rfl (length_and_decodePacket_of_decode hd).1 hfresh
  · exact ⟨_, u, hdenied, (step_congr_of_beginStep rfl rfl rfl).trans hu, hu, hout⟩
  · cases hdeny

/-! ### The grant of the held buffer (R289) -/

/-- Settles O48: the refused outcome of the scroll, whatever the fill. -/
theorem grantOfTheHeldBufferHasNoMove : Obligations.GrantOfTheHeldBufferHasNoMove :=
  fun _ _ _ _ _ _ _ hshift hgrant hheld => ⟨scroll_held hshift hgrant hheld, scroll_held hshift hgrant hheld⟩

end Sys2Proof.Machine
end

section
/-! Reset (spec/70_reset_and_hazards.md): what a reset by the host writes and what it keeps (R320), the values of the
reset state (R321, spec/10_state.md R45 to R49), and its invariant (R322). -/

namespace Sys2Proof.Machine

/-! ### A reset by the host (R320) -/

/-- A fill of the whole canvas leaves nothing of the pixels before it, and no other byte changes. -/
theorem rectFill_wholeCanvas_spec {b0 b : Buffer} {c : Color} (h : rectFill b0 wholeCanvas c = some b) :
    b.handle = b0.handle ∧ b.pad = b0.pad ∧ (∀ x < fullWidth, ∀ y < fullHeight, pixelAt b x y = pixelByte c) ∧
      ∀ a, offCanvas b0 a → readByte b.mem a = readByte b0.mem a := by
  obtain ⟨hhandle, hpad, hbytes⟩ := updateRect_spec h
  refine ⟨hhandle, hpad, fun x hx y hy => ?_, fun a ha => ?_⟩
  · rw [pixelAt_rectFill h hx, if_pos (rectHas_wholeCanvas_of_lt hx hy)]
  · rw [hbytes a, offsetInRect_of_offCanvas (by decide) ha]
    rfl

/-- Settles O49: a reset always completes, its fill of the whole canvas giving the live buffer. -/
theorem hostResetWritesEveryElement : Obligations.HostResetWritesEveryElement := by
  intro s b0 rest hi
  obtain ⟨b, e, hfill⟩ := hostReset_total b0 { s with input := rest }
  obtain ⟨hhandle, hpad, hpixels, hframe⟩ := rectFill_wholeCanvas_spec hfill
  refine ⟨b, (step_reset hi).trans e, hhandle, hpad, fun x hx y hy => ?_, hframe⟩
  rw [hpixels x hx y hy, pixelByte_toNat]

/-! ### The reset state (R321) -/

/-- The reset state's buffer lists no byte, so it reads as `INIT_PIXEL` everywhere (R45). -/
@[simp] theorem pixelAt_reset_live (x y : Nat) : pixelAt State.reset.live x y = 0 := rfl

theorem canonical_reset_live : State.reset.live.canonical := ⟨reset_mem_wf, fun _ h => absurd h List.not_mem_nil⟩

/-- Settles O51: the fill of a canonical buffer with `INIT_PIXEL` is the reset state's buffer, a canonical buffer being
given by its handle, its padding and its pixels. -/
theorem resetStateIsAHostReset : Obligations.ResetStateIsAHostReset := by
  intro b0 hcanonical hhandle hpad
  obtain ⟨b, e, hfill⟩ := hostReset_total b0 State.reset
  obtain ⟨hhandle', hpad', hpixels, -⟩ := rectFill_wholeCanvas_spec hfill
  obtain rfl : b = State.reset.live :=
    buffer_ext_of_pixels (canonical_updateRect hfill hcanonical) canonical_reset_live (hhandle'.trans hhandle)
      (hpad'.trans hpad) fun x hx y hy => (hpixels x hx y hy).trans (by rw [pixelAt_reset_live]; decide)
  exact (step_reset rfl).trans e

/-- Settles O50: the canvas by the bytes of an unlisted buffer, the palette entry by entry, the rest as it stands. -/
theorem resetStateHoldsTheResetValues : Obligations.ResetStateHoldsTheResetValues :=
  ⟨fun x _ y _ => pixelAt_reset_live x y, by decide, rfl, rfl, rfl, rfl, rfl, rfl, rfl⟩

/-! ### The invariant at reset (R322) -/

/-- Settles O53: the reset state's buffer lists no byte, and no action of the host is pending. -/
theorem resetStateHasTheInvariant : Obligations.ResetStateHasTheInvariant where
  liveCanonical := canonical_reset_live
  liveIndexed _ h := absurd h List.not_mem_nil
  hsRange := Nat.zero_le _
  vsRange := Nat.zero_le _
  idle := rfl
  oneBuffer := rfl
  inputCanonical _ h := absurd h List.not_mem_nil

end Sys2Proof.Machine
end
